-- ==== Sys2Proof/Word.lean ====
section
/-! DEFINITION. Sys2Proof/Word.lean: the widths of the spec (00_scope.md R9) and the two pixel depths (30_encoding.md R82). -/

namespace Sys2Proof

/-- A byte: 8 bits, 0–255 (R9). -/
abbrev Byte := BitVec 8

/-- A register, or the data of one host access: 32 bits (R9, R21). -/
abbrev Word := BitVec 32

/-- The two pixel depths, "exactly two fixed pixel depths" (R3, R82): DEPTH = 0 is 4 bits per pixel, DEPTH = 1 is 8. -/
inductive Depth where
  | bpp4
  | bpp8
  deriving DecidableEq, Repr

end Sys2Proof
end

