-- ==== Sys2Proof/Config.lean ====
section
/-! DEFINITION. Sys2Proof/Config.lean: what is fixed for one machine (00_scope.md R7) and the free values the spec
leaves open (10_state.md R38, 93_implementation_defined.md U1). -/

namespace Sys2Proof

/-- The implementation parameters that a rule reads (R7). The spec leaves both OPEN, so no claim may rest on one value
of them: they are carried in `Machine.State`, no step changes them, and a claim about every state is a claim about
every pair of sizes. The three base addresses are not here, because the model keeps the three spaces separate, as
20_memory.md R58 allows. DESIGN CHOICE, notes/assumptions/1.md and 2.md. -/
structure Config where
  /-- IN_SIZE, the size of IN in bytes. -/
  inSize : Nat
  /-- OUT_SIZE, the size of OUT in bytes. -/
  outSize : Nat
  deriving DecidableEq, Repr

namespace Config

/-- The constraint of R7: 768 ≤ IN_SIZE ≤ 2^32 − 1, and the same for OUT_SIZE. -/
abbrev legal (c : Config) : Prop :=
  768 ≤ c.inSize ∧ c.inSize ≤ 2 ^ 32 - 1 ∧ 768 ≤ c.outSize ∧ c.outSize ≤ 2 ^ 32 - 1

/-- The sizes `Machine.State.reset` is given: the pair 95_test_vectors.md names "(sizes 4096)". DESIGN CHOICE,
notes/assumptions/1.md: the spec fixes none. -/
def default : Config := ⟨4096, 4096⟩

end Config

/-- What an unwritten byte reads as (10_state.md R38, U1): a free draw. `Config.freeByte n a` is the draw the `n`-th
drawing read makes for offset `a`. It has no body, so no proof can know any of its values.
notes/assumptions/4.md. -/
opaque Config.freeByte : Nat → Nat → Byte

end Sys2Proof
end

