-- ==== Sys2Proof/Machine/Port.lean ====
section
/-! DEFINITION. Sys2Proof/Machine/Port.lean: what the host and the platform can do to the block, as data
(10_state.md R20, R22, R35; 20_memory.md R50, R51; 70_reset_and_hazards.md R231). -/

namespace Sys2Proof.Machine

/-- The registers of the map of 10_state.md R22, by name. The reserved offsets (R34) have none. -/
inductive RegName where
  | cmd | status | inLen | argA | argB | resLen | resW | resH | resCount | capIn | capOut
  deriving DecidableEq, Repr

/-- The two byte memories (20_memory.md R50). -/
inductive Space where
  | inMem
  | outMem
  deriving DecidableEq, Repr

/-- The data of a host write: a value of the host's own, or the value its latest read returned, which the
pseudo-instruction COPY sends back (30_encoding.md R88). DESIGN CHOICE, notes/assumptions/5.md. -/
inductive HostData where
  | imm (v : Word)
  | lastRead
  deriving DecidableEq, Repr

/-- One thing that reaches the block from outside. Offsets and widths (in bytes) are unrestricted numbers here: an
access the spec gives no effect is a term, refused by `HostEvent.allowed` (Sys2Proof/WellFormed.lean). -/
inductive HostEvent where
  /-- A read of the register at `offset` (R35). -/
  | regRead (offset width : Nat)
  /-- A write of the register at `offset` (R35); at CMD it starts a command (R23). -/
  | regWrite (offset width : Nat) (data : HostData)
  /-- A read of IN or OUT (R51). -/
  | memRead (space : Space) (offset width : Nat)
  /-- A write of IN or OUT (R51). -/
  | memWrite (space : Space) (offset width : Nat) (data : HostData)
  /-- The platform resets the block (R231). -/
  | reset
  deriving DecidableEq, Repr

end Sys2Proof.Machine
end

