-- ==== Sys2Proof/Syntax.lean ====
section
/-! DEFINITION. Sys2Proof/Syntax.lean: the commands, one constructor per row of spec/opcode_table.json
(30_encoding.md R81, R84, R87). No command word carries an operand (R85): operands are read from registers and IN. -/

namespace Sys2Proof

/-- A legal command. The depth of a tile command is part of its row; the colour commands ignore DEPTH (R82), so
`cdec` and `cenc` stand for two words each. -/
inductive Instr where
  /-- `tdec.4`: TILE_DECODE at 4 bits per pixel (41_tile_codec.md R130). -/
  | tdec4
  /-- `tdec.8`: TILE_DECODE at 8 bits per pixel (R130). -/
  | tdec8
  /-- `tenc.4`: TILE_ENCODE at 4 bits per pixel (R131). -/
  | tenc4
  /-- `tenc.8`: TILE_ENCODE at 8 bits per pixel (R131). -/
  | tenc8
  /-- `cdec`: COLOR_DECODE (42_color_codec.md R170). -/
  | cdec
  /-- `cenc`: COLOR_ENCODE (R171). -/
  | cenc
  deriving DecidableEq, Repr

end Sys2Proof
end

