-- ==== Sys2Proof/WellFormed.lean ====
section
/-! DEFINITION. Sys2Proof/WellFormed.lean: which commands, command words and host accesses the spec gives an effect.
Every command is well formed, because none carries an operand (30_encoding.md R85); what can be ill formed is the word
(R83, R84) and the access that carries it (10_state.md R35, 20_memory.md R51). -/

namespace Sys2Proof

/-- Every `Instr` is well formed: a command word has no operand field (R85). -/
def Instr.wellFormed (_ : Instr) : Bool := true

/-- The four fields of a command word (R80). -/
structure CmdFields where
  /-- OP, bits [2:0]. -/
  op : BitVec 3
  /-- RSV0, bit [3]. -/
  rsv0 : BitVec 1
  /-- DEPTH, bit [4]. -/
  depth : BitVec 1
  /-- RSV1, bits [31:5]. -/
  rsv1 : BitVec 27
  deriving DecidableEq, Repr

/-- The fields of a legal word: both reserved fields are 0 (R83) and OP is not reserved (R81). DEPTH is free (R82). -/
def CmdFields.legal (f : CmdFields) : Bool :=
  f.rsv0 == 0 && f.rsv1 == 0 && (f.op == 1 || f.op == 2 || f.op == 3 || f.op == 4)

namespace Machine

/-- A register access has an effect when it is a 32-bit access at a multiple of 4 below 0x100 (R35). -/
abbrev regAccessAllowed (offset width : Nat) : Prop :=
  width = 4 ∧ offset % 4 = 0 ∧ offset < 0x100

/-- An access of `width` bytes at `offset` of a space of `size` bytes has an effect when its width is 1, 2 or 4, it is
naturally aligned, and it ends inside the space (R51). -/
abbrev memAccessAllowed (size offset width : Nat) : Prop :=
  (width = 1 ∨ width = 2 ∨ width = 4) ∧ offset % width = 0 ∧ offset + width ≤ size

/-- The size of a space (R50). -/
def Space.size (c : Config) : Space → Nat
  | .inMem => c.inSize
  | .outMem => c.outSize

/-- The host events that the spec gives an effect; for any other the host is stuck (U6, D23). -/
def HostEvent.allowed (c : Config) : HostEvent → Bool
  | .regRead offset width => decide (regAccessAllowed offset width)
  | .regWrite offset width _ => decide (regAccessAllowed offset width)
  | .memRead space offset width => decide (memAccessAllowed (space.size c) offset width)
  | .memWrite space offset width _ => decide (memAccessAllowed (space.size c) offset width)
  | .reset => true

end Machine

end Sys2Proof
end

