-- ==== Sys2Proof/Decode.lean ====
section
/-! DEFINITION. Sys2Proof/Decode.lean: the command decoder (30_encoding.md R80–R84), total on every 32-bit word, and
after it the encoder (R87) and the mnemonics' words. -/

namespace Sys2Proof

/-- Why a word is Illegal. The machine reports IllegalCommand for both (60_exceptions.md R202); the reason is the
model's own and reaches no state. DESIGN CHOICE, notes/assumptions/11.md. -/
inductive IllegalWord where
  /-- RSV0 or RSV1 is not 0 (R83). -/
  | reservedBits
  /-- OP is 0, 5, 6 or 7 (R81). -/
  | reservedOp
  deriving DecidableEq, Repr

/-- `v[hi:lo]` of R80: the four fields of a command word. -/
def fieldsOf (v : Word) : CmdFields where
  op := v.extractLsb' 0 3
  rsv0 := v.extractLsb' 3 1
  depth := v.extractLsb' 4 1
  rsv1 := v.extractLsb' 5 27

/-- DEPTH = 0 selects 4 bits per pixel and DEPTH = 1 selects 8 (R82). -/
def depthOf (d : BitVec 1) : Depth :=
  if d = 1 then .bpp8 else .bpp4

/-- `decodeCmd` of R84: every 32-bit word is exactly one command or Illegal. -/
def decodeCmd (v : Word) : Except IllegalWord Instr :=
  let f := fieldsOf v
  if f.rsv0 ≠ 0 ∨ f.rsv1 ≠ 0 then .error .reservedBits
  else if f.op = 1 then
    match depthOf f.depth with
    | .bpp4 => .ok .tdec4
    | .bpp8 => .ok .tdec8
  else if f.op = 2 then
    match depthOf f.depth with
    | .bpp4 => .ok .tenc4
    | .bpp8 => .ok .tenc8
  else if f.op = 3 then .ok .cdec
  else if f.op = 4 then .ok .cenc
  else .error .reservedOp

/-- The decoder on a row's word, its bits numbered as spec/opcode_table.json numbers them: a command word is the
32-bit data of one CMD write (R80), so bit i of the table's number is bit i of the word, and bits above `nbits` are
0. -/
def decodeTableWord (nbits w : Nat) : Option Instr :=
  match decodeCmd (BitVec.ofNat 32 (w % 2 ^ nbits)) with
  | .ok i => some i
  | .error _ => none

/-- A command word put together from its fields (R80). -/
def wordOf (f : CmdFields) : Word :=
  f.rsv1 ++ f.depth ++ f.rsv0 ++ f.op

/-- The fields of each command's word (R81, R82), DEPTH = 0 for the colour commands (R87). -/
def encodeFields : Instr → CmdFields
  | .tdec4 => { op := 0b001, rsv0 := 0, depth := 0, rsv1 := 0 }
  | .tdec8 => { op := 0b001, rsv0 := 0, depth := 1, rsv1 := 0 }
  | .tenc4 => { op := 0b010, rsv0 := 0, depth := 0, rsv1 := 0 }
  | .tenc8 => { op := 0b010, rsv0 := 0, depth := 1, rsv1 := 0 }
  | .cdec => { op := 0b011, rsv0 := 0, depth := 0, rsv1 := 0 }
  | .cenc => { op := 0b100, rsv0 := 0, depth := 0, rsv1 := 0 }

/-- The word an assembler emits for a command (R87). -/
def encode (i : Instr) : Word :=
  wordOf (encodeFields i)

/-- The bits of a word that select command `i`: the "mask" of its row of spec/opcode_table.json. The colour commands
ignore DEPTH, bit 4 (R82). -/
def encodingMask : Instr → Word
  | .tdec4 | .tdec8 | .tenc4 | .tenc8 => 0xFFFFFFFF
  | .cdec | .cenc => 0xFFFFFFEF

end Sys2Proof
end

