-- ==== Sys2Proof/Machine/State.lean ====
section
/-! DEFINITION. Sys2Proof/Machine/State.lean: the state of the machine as plain data (10_state.md §5), its reset
(70_reset_and_hazards.md R230), and the ways a step can stop. -/

namespace Sys2Proof.Machine

/-- The values of STATUS.CODE, by the names of 60_exceptions.md R201. Codes 8–15 are never produced (10_state.md R24,
U9), so they have no constructor. DEDUCED, notes/assumptions/10.md. -/
inductive StatusCode where
  | ok
  | malformedBuffer
  | invalidDimensions
  | pixelIndexOutOfRange
  | unsupportedPaletteSize
  | invalidTilesPerRow
  | illegalCommand
  | capacityExceeded
  deriving DecidableEq, Repr

/-- A byte memory (R36, R37): the written bytes as (offset, byte) pairs, offsets strictly rising. An offset that is not
listed is unwritten (R38). -/
abbrev Memory := List Host.Cell

/-- What an unlisted offset holds: no byte, it is unwritten (R38). A read of it is answered with a free draw
(`Memory.readByte` in Sys2Proof/Machine/Ops.lean). -/
def Memory.unlisted : Option Byte := none

/-- The whole state. `inLen` … `outMem` is the spec's state record (10_state.md §5), `cfg` its parameters, and `draws`,
`pending` and `readData` are the model's own fields. -/
structure State where
  /-- IN_SIZE and OUT_SIZE (00_scope.md R7); no step changes them. notes/assumptions/1.md. -/
  cfg : Config
  /-- IN_LEN (R25). -/
  inLen : Word
  /-- ARG_A (R26). -/
  argA : Word
  /-- ARG_B (R27). -/
  argB : Word
  /-- STATUS.CODE (R24). -/
  code : StatusCode
  /-- STATUS.DONE (R24). -/
  done : Bool
  /-- RES_LEN (R28). -/
  resLen : Word
  /-- RES_W (R29). -/
  resW : Word
  /-- RES_H (R30). -/
  resH : Word
  /-- RES_COUNT (R31). -/
  resCount : Word
  /-- IN (R36). -/
  inMem : Memory
  /-- OUT (R37). -/
  outMem : Memory
  /-- The model's own: how many drawing reads have happened, the index of the next free draw (R38).
  notes/assumptions/4.md. -/
  draws : Nat
  /-- The model's own: the host events still to come, the next one first (R20, R60). notes/assumptions/3.md. -/
  pending : List HostEvent
  /-- The model's own: the value the host's latest read returned. notes/assumptions/5.md. -/
  readData : Word
  deriving DecidableEq, Repr

/-- The machine with parameters `c` right after reset: every register 0, every byte of IN and OUT unwritten (R230), and
no host event to come. -/
def State.resetWith (c : Config) : State where
  cfg := c
  inLen := 0
  argA := 0
  argB := 0
  code := .ok
  done := false
  resLen := 0
  resW := 0
  resH := 0
  resCount := 0
  inMem := []
  outMem := []
  draws := 0
  pending := []
  readData := 0

/-- The machine right after reset (R230). Its sizes are the model's choice, notes/assumptions/1.md. -/
def State.reset : State := State.resetWith Config.default

/-- Why the machine stops: the host made an access that the spec gives no effect, and is stuck
(93_implementation_defined.md U6, 92_eei_decisions.md D23). Both are safe: no claim can be proved about what comes
after. notes/assumptions/7.md. -/
inductive Fault where
  /-- Raised by a register access that is not a 32-bit access at a multiple of 4 below 0x100 (R35). Safe. -/
  | stuckRegisterAccess
  /-- Raised by an access to IN or OUT that is misaligned, of a width other than 1, 2 or 4, or past the end (R51).
  Safe. -/
  | stuckMemoryAccess
  deriving DecidableEq, Repr

/-- Why a command has no meaning. -/
inductive Refusal where
  /-- Raised by an arm of `exec` that has no meaning yet; there is none, so it is never raised. Safe. -/
  | notModelled (mnemonic : String)
  deriving DecidableEq, Repr

end Sys2Proof.Machine
end

