-- ==== Sys2Proof/Machine/Flags.lean ====
section
/-! DEFINITION. Sys2Proof/Machine/Flags.lean: the STATUS register, the only flags of the machine (10_state.md R24, R39),
and the numbers of its codes (60_exceptions.md R201). -/

namespace Sys2Proof.Machine

/-- The number of a status code (R201), as the four bits of STATUS.CODE. -/
def StatusCode.bits : StatusCode → BitVec 4
  | .ok => 0
  | .malformedBuffer => 1
  | .invalidDimensions => 2
  | .pixelIndexOutOfRange => 3
  | .unsupportedPaletteSize => 4
  | .invalidTilesPerRow => 5
  | .illegalCommand => 6
  | .capacityExceeded => 7

/-- STATUS as the host reads it (R24): CODE at [3:0], DONE at [8], every other bit 0. -/
def statusWord (code : StatusCode) (done : Bool) : Word :=
  (0 : BitVec 23) ++ BitVec.ofBool done ++ (0 : BitVec 4) ++ code.bits

/-- Every command writes CODE and sets DONE (R24, R102, R103). -/
def State.setStatus (s : State) (code : StatusCode) : State :=
  { s with code := code, done := true }

end Sys2Proof.Machine
end

