-- ==== Sys2Proof/Machine/Ops.lean ====
section
/-! DEFINITION. Sys2Proof/Machine/Ops.lean: the named operations over memories and registers, committing a command's
result (40_command.md R102) and reporting an error (R103, 60_exceptions.md R200), and reset (R230). -/

namespace Sys2Proof.Machine

/-! Memories (10_state.md R36–R38). -/

/-- The byte at an offset, or none where the offset is unwritten (R38). -/
def Memory.read : Memory → Nat → Option Byte
  | [], _ => Memory.unlisted
  | (k, b) :: m, a => if a = k then some b else Memory.read m a

/-- `MemWrite(space, a, 1, v)` of 00_scope.md R10, keeping the offsets strictly rising. -/
def Memory.write : Memory → Nat → Byte → Memory
  | [], a, v => [(a, v)]
  | (k, b) :: m, a, v =>
    if a < k then (a, v) :: (k, b) :: m
    else if a = k then (a, v) :: m
    else (k, b) :: Memory.write m a v

/-- `for i in [0, len): MemWrite(OUT, i, 1, out[i])` of R102, in one pass: the first `len` offsets are listed anew and
the others stay. -/
def Memory.writeFirst (m : Memory) (len : Nat) (out : Nat → Byte) : Memory :=
  (List.range len).map (fun i => (i, out i)) ++ m.filter (fun c => decide (len ≤ c.1))

/-- The offsets of a memory are strictly rising, so that equal memories are equal lists. -/
abbrev Memory.rising (m : Memory) : Prop :=
  m.Pairwise (fun c d => c.1 < d.1)

/-- The canonical form of a memory of `size` bytes: offsets strictly rising and all inside the space. -/
abbrev Memory.wf (size : Nat) (m : Memory) : Prop :=
  Memory.rising m ∧ ∀ c ∈ m, c.1 < size

/-- `MemRead(space, a, 1)` of R10: the written byte, or for an unwritten one the free draw of drawing read `n`
(R38). -/
def Memory.readByte (m : Memory) (n a : Nat) : Byte :=
  (m.read a).getD (Config.freeByte n a)

/-- `Σ b_k << 8k`: bytes as a little-endian number (20_memory.md R51, R52). -/
def leValue : List Byte → Nat
  | [] => 0
  | b :: bs => b.toNat + 2 ^ 8 * leValue bs

/-- `v[8k+7:8k]`: byte `k` of a value, little-endian (R51). -/
def leByte (v : Word) (k : Nat) : Byte :=
  v.extractLsb' (8 * k) 8

/-- A read of `width` bytes at `a` (R51). -/
def Memory.readLE (m : Memory) (n a width : Nat) : Word :=
  BitVec.ofNat 32 (leValue ((List.range width).map fun k => m.readByte n (a + k)))

/-- A write of `width` bytes at `a` (R51). -/
def Memory.writeLE (m : Memory) (a width : Nat) (v : Word) : Memory :=
  (List.range width).foldl (fun m k => m.write (a + k) (leByte v k)) m

/-! The state's parts. -/

/-- The memory of a space (20_memory.md R50). -/
def State.mem (s : State) : Space → Memory
  | .inMem => s.inMem
  | .outMem => s.outMem

/-- Replaces the memory of a space. -/
def State.setMem (s : State) (space : Space) (m : Memory) : State :=
  match space with
  | .inMem => { s with inMem := m }
  | .outMem => { s with outMem := m }

/-- The value the host gets from a read. -/
def State.setReadData (s : State) (v : Word) : State :=
  { s with readData := v }

/-- One more drawing read has happened (R38): the next one draws anew. -/
def State.nextDraw (s : State) : State :=
  { s with draws := s.draws + 1 }

/-- The value of a host write's data. -/
def State.dataValue (s : State) : HostData → Word
  | .imm v => v
  | .lastRead => s.readData

/-! Registers (10_state.md R21–R34). -/

/-- `zext_32` of 00_scope.md R10: a number below 2^32 as a register value. -/
def zext32 (n : Nat) : Word := BitVec.ofNat 32 n

/-- The offset of a register in the window (R22). -/
def RegName.offset : RegName → Nat
  | .cmd => 0x00
  | .status => 0x04
  | .inLen => 0x08
  | .argA => 0x0C
  | .argB => 0x10
  | .resLen => 0x14
  | .resW => 0x18
  | .resH => 0x1C
  | .resCount => 0x20
  | .capIn => 0x24
  | .capOut => 0x28

/-- The registers in the order of the map of R22. -/
def RegName.all : List RegName :=
  [.cmd, .status, .inLen, .argA, .argB, .resLen, .resW, .resH, .resCount, .capIn, .capOut]

/-- The register at an offset, or none where the offset is reserved (R34). -/
def RegName.atOffset (offset : Nat) : Option RegName :=
  RegName.all.find? (fun r => r.offset == offset)

/-- What a host read of a register returns (R22–R33). -/
def State.readReg (s : State) : RegName → Word
  | .cmd => 0
  | .status => statusWord s.code s.done
  | .inLen => s.inLen
  | .argA => s.argA
  | .argB => s.argB
  | .resLen => s.resLen
  | .resW => s.resW
  | .resH => s.resH
  | .resCount => s.resCount
  | .capIn => zext32 s.cfg.inSize
  | .capOut => zext32 s.cfg.outSize

/-- What a host read of an offset of the window returns: a reserved offset reads 0 (R34). -/
def State.readOffset (s : State) (offset : Nat) : Word :=
  match RegName.atOffset offset with
  | some r => s.readReg r
  | none => 0

/-- A host write of a register other than CMD: the three RW registers store all 32 bits (R25–R27, R35), the R registers
ignore it (R22, R24, R28–R33). CMD has no storage (R23); the command its write starts is `onCmdWrite`
(Sys2Proof/Machine/HostAccess.lean). -/
def State.writeReg (s : State) : RegName → Word → State
  | .inLen, v => { s with inLen := v }
  | .argA, v => { s with argA := v }
  | .argB, v => { s with argB := v }
  | .cmd, _ | .status, _ | .resLen, _ | .resW, _ | .resH, _ | .resCount, _ | .capIn, _ | .capOut, _ => s

/-! The end of a command. -/

/-- `commitFail(code)` of R103: an error is reported in STATUS and changes nothing else (60_exceptions.md R200). It is
this machine's whole "taking an exception": no control is transferred and no state saved (R211), so there is nothing
to return from (R212). -/
def State.commitFail (s : State) (code : StatusCode) : State :=
  s.setStatus code

/-- `commitOk(out, len, resW, resH, count)` of R102. -/
def State.commitOk (s : State) (out : Nat → Byte) (len resW resH count : Nat) : State :=
  { s with
    outMem := s.outMem.writeFirst len out
    resLen := zext32 len
    resW := zext32 resW
    resH := zext32 resH
    resCount := zext32 count
    code := .ok
    done := true }

/-! Reset. -/

/-- The reset event (R230, R231): the block's state is that of R230. The parameters are constants, and what belongs to
the host (its coming events, the value it read) and the count of free draws are not the block's, so they stay.
notes/assumptions/8.md. -/
def State.resetBlock (s : State) : State :=
  { State.resetWith s.cfg with draws := s.draws, pending := s.pending, readData := s.readData }

end Sys2Proof.Machine
end

