-- ==== Sys2Proof/Machine/Operands.lean ====
section
/-! DEFINITION. Sys2Proof/Machine/Operands.lean: where a command's operands come from (30_encoding.md R85), the frame
every command runs in (40_command.md R100, R101), and how much of IN a command reads (20_memory.md R55). -/

namespace Sys2Proof.Machine

/-- The snapshot of R100: the operand registers as unsigned numbers (R85) and the memory sizes. -/
structure Snapshot where
  inLen : Nat
  argA : Nat
  argB : Nat
  inSize : Nat
  outSize : Nat
  deriving DecidableEq, Repr

/-- `snap` of R100, taken at the moment of the CMD write. -/
def State.snapshot (s : State) : Snapshot where
  inLen := s.inLen.toNat
  argA := s.argA.toNat
  argB := s.argB.toNat
  inSize := s.cfg.inSize
  outSize := s.cfg.outSize

/-- `inb(a)` of R101: the byte of IN at `a`, taken once per command. Every use of offset `a` in one command sees this
one value, because an unwritten byte's draw is fixed by the command's draw index and `a`. -/
def State.inb (s : State) (a : Nat) : Byte :=
  s.inMem.readByte s.draws a

/-- What `run` of R100 answers: `Fail(code)`, or `Ok(out, len, resW, resH, count)`. -/
inductive CmdResult where
  | fail (code : StatusCode)
  | ok (out : Nat → Byte) (len resW resH count : Nat)

/-- The end of R100: commit what `run` answered (R102, R103). -/
def State.commit (s : State) : CmdResult → State
  | .fail code => s.commitFail code
  | .ok out len resW resH count => s.commitOk out len resW resH count

/-- The frame of every command (R100, R101). The check phase reads only the snapshot, and the first condition that
fails ends the command. The compute phase reads IN, as one drawing read (R38, R101). -/
def runCommand (check : Snapshot → Option StatusCode) (compute : Snapshot → (Nat → Byte) → CmdResult) (s : State) :
    Host.Outcome State Fault Refusal :=
  match check s.snapshot with
  | some code => .next (s.commitFail code)
  | none => .next (s.commit (compute s.snapshot s.inb)).nextDraw

/-- `inLen` of R55, the bytes of IN a command may read: [0, `inputLength`). -/
def inputLength (i : Instr) (s : Snapshot) : Nat :=
  match i with
  | .tdec4 | .tdec8 | .cdec => s.inLen
  | .tenc4 | .tenc8 => s.argA * s.argB
  | .cenc => 3 * s.argA

/-- `ceil(a / b)` of 00_scope.md R9. -/
def ceilDiv (a b : Nat) : Nat := (a + b - 1) / b

end Sys2Proof.Machine
end

