-- ==== Sys2Proof/Machine/Color.lean ====
section
/-! DEFINITION. Sys2Proof/Machine/Color.lean: the colour codec unit, COLOR_DECODE and COLOR_ENCODE (42_color_codec.md
R160–R171). -/

namespace Sys2Proof.Machine

/-- `le16(b0, b1)` of 00_scope.md R10: `b0 | (b1 << 8)`. -/
def le16 (b0 b1 : Byte) : BitVec 16 :=
  b0.setWidth 16 ||| (b1.setWidth 16 <<< 8)

/-- R161: `w[4:0]`. -/
def red5 (w : BitVec 16) : BitVec 5 := w.extractLsb' 0 5

/-- R161: `w[9:5]`. -/
def green5 (w : BitVec 16) : BitVec 5 := w.extractLsb' 5 5

/-- R161: `w[14:10]`. -/
def blue5 (w : BitVec 16) : BitVec 5 := w.extractLsb' 10 5

/-- R162: `c5 × 8`, an 8-bit value. -/
def widen (c5 : BitVec 5) : Byte := c5.setWidth 8 * 8

/-- R163: `c8 div 8`, a 5-bit value. -/
def narrow (c8 : Byte) : BitVec 5 := (c8 / 8).setWidth 5

/-- R164: `r5 | (g5 << 5) | (b5 << 10)`, bit 15 = 0. -/
def pack15 (r5 g5 b5 : BitVec 5) : BitVec 16 :=
  r5.setWidth 16 ||| (g5.setWidth 16 <<< 5) ||| (b5.setWidth 16 <<< 10)

/-! COLOR_DECODE (R170). -/

/-- The check phase of R170, in the order of 60_exceptions.md R209. The length is exactly 32 or 512 bytes: an odd
length is not halved and rounded down (R166, 90_conflicts.md C3). -/
def colorDecodeCheck (s : Snapshot) : Option StatusCode :=
  if s.inLen ≠ 32 ∧ s.inLen ≠ 512 then some .unsupportedPaletteSize
  else if s.inSize < s.inLen ∨ s.outSize < 3 * (s.inLen / 2) then some .capacityExceeded
  else none

/-- R160: entry word `i` of a PackedPalette. -/
def entryWord (buffer : Nat → Byte) (i : Nat) : BitVec 16 :=
  le16 (buffer (2 * i)) (buffer (2 * i + 1))

/-- R161, R162, R165: channel `c` of a decoded entry, 0 red, 1 green, 2 blue. -/
def decodedChannel (w : BitVec 16) (c : Nat) : Byte :=
  if c = 0 then widen (red5 w) else if c = 1 then widen (green5 w) else widen (blue5 w)

/-- The compute phase of R170. Output byte `a` is channel (a mod 3) of entry (a div 3) (R165). -/
def colorDecodeCompute (s : Snapshot) (inb : Nat → Byte) : CmdResult :=
  let n := s.inLen / 2
  .ok (fun a => decodedChannel (entryWord inb (a / 3)) (a % 3)) (3 * n) 0 0 n

/-- `cdec`: COLOR_DECODE (R170). -/
def execCdec (s : State) : Host.Outcome State Fault Refusal :=
  runCommand colorDecodeCheck colorDecodeCompute s

/-! COLOR_ENCODE (R171). -/

/-- The check phase of R171, in the order of R209. -/
def colorEncodeCheck (s : Snapshot) : Option StatusCode :=
  if s.argA ≠ 16 ∧ s.argA ≠ 256 then some .unsupportedPaletteSize
  else if s.inSize < 3 * s.argA ∨ s.outSize < 2 * s.argA then some .capacityExceeded
  else none

/-- R163, R164, R165: the packed word of ColorTable entry `i`. -/
def encodedWord (table : Nat → Byte) (i : Nat) : BitVec 16 :=
  pack15 (narrow (table (3 * i))) (narrow (table (3 * i + 1))) (narrow (table (3 * i + 2)))

/-- R164: the low byte of a word is at the lower offset. -/
def wordByte (w : BitVec 16) (k : Nat) : Byte :=
  if k = 0 then w.extractLsb' 0 8 else w.extractLsb' 8 8

/-- The compute phase of R171. Output byte `a` is byte (a mod 2) of word (a div 2) (R164). -/
def colorEncodeCompute (s : Snapshot) (inb : Nat → Byte) : CmdResult :=
  let n := s.argA
  .ok (fun a => wordByte (encodedWord inb (a / 2)) (a % 2)) (2 * n) 0 0 n

/-- `cenc`: COLOR_ENCODE (R171). -/
def execCenc (s : State) : Host.Outcome State Fault Refusal :=
  runCommand colorEncodeCheck colorEncodeCompute s

end Sys2Proof.Machine
end

