-- ==== Sys2Proof/Machine/Tile.lean ====
section
/-! DEFINITION. Sys2Proof/Machine/Tile.lean: the tile codec unit, TILE_DECODE and TILE_ENCODE (41_tile_codec.md
R120–R131). -/

namespace Sys2Proof.Machine

/-- R120: a tile is 32 bytes at 4 bpp and 64 at 8 bpp. -/
def bytesPerTile : Depth → Nat
  | .bpp4 => 32
  | .bpp8 => 64

/-- R122: the tile that raster pixel (x, y) lies in, with `T` tiles per row. -/
def tileAt (T x y : Nat) : Nat := (y / 8) * T + x / 8

/-- R123: the number of raster pixel (x, y) inside its tile. -/
def pixelInTile (x y : Nat) : Nat := (y % 8) * 8 + x % 8

/-- R122, R123: the column of pixel `p` of tile `t`. -/
def rasterX (T t p : Nat) : Nat := (t % T) * 8 + p % 8

/-- R122, R123: the row of pixel `p` of tile `t`. -/
def rasterY (T t p : Nat) : Nat := (t / T) * 8 + p / 8

/-- R125: the low nibble is the left (even) pixel, the high nibble the right (odd) one, zero-extended to a byte.
UNVERIFIED (93_implementation_defined.md U3), notes/assumptions/9.md. -/
def pixel4 (b : Byte) (p : Nat) : Byte :=
  if p % 2 = 0 then (b.extractLsb' 0 4).setWidth 8 else (b.extractLsb' 4 4).setWidth 8

/-- R126: byte `k` of a 4 bpp tile from the tile's 64 pixels: `P[2k][3:0] | (P[2k+1][3:0] << 4)`. -/
def pack4 (P : Nat → Byte) (k : Nat) : Byte :=
  ((P (2 * k)).extractLsb' 0 4).setWidth 8 ||| (((P (2 * k + 1)).extractLsb' 0 4).setWidth 8 <<< 4)

/-- R124, R125: pixel `p` of tile `t` of a TileBuffer. -/
def unpackPixel (d : Depth) (buffer : Nat → Byte) (t p : Nat) : Byte :=
  match d with
  | .bpp8 => buffer (t * 64 + p)
  | .bpp4 => pixel4 (buffer (t * 32 + p / 2)) p

/-! TILE_DECODE (R129, R130). -/

/-- R129: tileCount of a buffer of length `L`. -/
def tileCountOf (d : Depth) (L : Nat) : Nat := L / bytesPerTile d

/-- R129: the decoded raster's height. -/
def decodeHeight (d : Depth) (L T : Nat) : Nat := ceilDiv (tileCountOf d L) T * 8

/-- The check phase of R130, in the order of 60_exceptions.md R209. -/
def tileDecodeCheck (d : Depth) (s : Snapshot) : Option StatusCode :=
  if s.argA = 0 then some .invalidTilesPerRow
  else if s.inLen % bytesPerTile d ≠ 0 then some .malformedBuffer
  else if s.inSize < s.inLen ∨ 2 ^ 32 - 1 < s.argA * 8 ∨ s.outSize < s.argA * 8 * decodeHeight d s.inLen s.argA then
    some .capacityExceeded
  else none

/-- R130: raster pixel (x, y), 0 in the padding tiles, which are not read from the buffer (R129). -/
def decodedPixel (d : Depth) (T tileCount : Nat) (buffer : Nat → Byte) (x y : Nat) : Byte :=
  if tileCount ≤ tileAt T x y then 0 else unpackPixel d buffer (tileAt T x y) (pixelInTile x y)

/-- The compute phase of R130. The raster byte at offset `a` is pixel (a mod W, a div W) (R121). -/
def tileDecodeCompute (d : Depth) (s : Snapshot) (inb : Nat → Byte) : CmdResult :=
  let T := s.argA
  let tc := tileCountOf d s.inLen
  let W := T * 8
  let H := decodeHeight d s.inLen T
  .ok (fun a => decodedPixel d T tc inb (a % W) (a / W)) (W * H) W H tc

/-- TILE_DECODE at depth `d` (R130). -/
def tileDecode (d : Depth) : State → Host.Outcome State Fault Refusal :=
  runCommand (tileDecodeCheck d) (tileDecodeCompute d)

/-! TILE_ENCODE (R131). -/

/-- R121: the tiles of a raster of width `W` and height `H`. -/
def rasterTiles (W H : Nat) : Nat := (W / 8) * (H / 8)

/-- The check phase of R131, in the order of R209. -/
def tileEncodeCheck (d : Depth) (s : Snapshot) : Option StatusCode :=
  if s.argA % 8 ≠ 0 ∨ s.argB % 8 ≠ 0 then some .invalidDimensions
  else if s.inSize < s.argA * s.argB ∨ s.outSize < rasterTiles s.argA s.argB * bytesPerTile d then
    some .capacityExceeded
  else none

/-- R128: at 4 bpp some pixel of the raster is above 15; at 8 bpp never. -/
def pixelOutOfRange (d : Depth) (W H : Nat) (inb : Nat → Byte) : Bool :=
  match d with
  | .bpp4 => (List.range (W * H)).any fun a => decide (15 < (inb a).toNat)
  | .bpp8 => false

/-- R131: `P[p]` of tile `t`, the raster pixel the tile permutation puts there (R122, R123). -/
def tilePixel (W : Nat) (inb : Nat → Byte) (t p : Nat) : Byte :=
  inb (rasterY (W / 8) t p * W + rasterX (W / 8) t p)

/-- R126, R127: byte `k` of output tile `t`. -/
def packTileByte (d : Depth) (W : Nat) (inb : Nat → Byte) (t k : Nat) : Byte :=
  match d with
  | .bpp8 => tilePixel W inb t k
  | .bpp4 => pack4 (tilePixel W inb t) k

/-- The compute phase of R131. The output byte at offset `a` is byte (a mod bytesPerTile) of tile (a div bytesPerTile)
(R120). -/
def tileEncodeCompute (d : Depth) (s : Snapshot) (inb : Nat → Byte) : CmdResult :=
  let W := s.argA
  let H := s.argB
  let tc := rasterTiles W H
  let bpt := bytesPerTile d
  match pixelOutOfRange d W H inb with
  | true => .fail .pixelIndexOutOfRange
  | false => .ok (fun a => packTileByte d W inb (a / bpt) (a % bpt)) (tc * bpt) W H tc

/-- TILE_ENCODE at depth `d` (R131). -/
def tileEncode (d : Depth) : State → Host.Outcome State Fault Refusal :=
  runCommand (tileEncodeCheck d) (tileEncodeCompute d)

/-! The four rows of the table. -/

/-- `tdec.4`: TILE_DECODE at 4 bpp (R130). -/
def execTdec4 (s : State) : Host.Outcome State Fault Refusal := tileDecode .bpp4 s

/-- `tdec.8`: TILE_DECODE at 8 bpp (R130). -/
def execTdec8 (s : State) : Host.Outcome State Fault Refusal := tileDecode .bpp8 s

/-- `tenc.4`: TILE_ENCODE at 4 bpp (R131). -/
def execTenc4 (s : State) : Host.Outcome State Fault Refusal := tileEncode .bpp4 s

/-- `tenc.8`: TILE_ENCODE at 8 bpp (R131). -/
def execTenc8 (s : State) : Host.Outcome State Fault Refusal := tileEncode .bpp8 s

end Sys2Proof.Machine
end

