-- ==== Sys2Proof/Machine/Dispatch.lean ====
section
/-! DEFINITION. Sys2Proof/Machine/Dispatch.lean: the meaning of each command (40_command.md R100, `run`). -/

namespace Sys2Proof.Machine

def exec (i : Instr) (s : State) : Host.Outcome State Fault Refusal :=
  match i with
  | .tdec4 => Sys2Proof.Machine.execTdec4 s
  | .tdec8 => Sys2Proof.Machine.execTdec8 s
  | .tenc4 => Sys2Proof.Machine.execTenc4 s
  | .tenc8 => Sys2Proof.Machine.execTenc8 s
  | .cdec => Sys2Proof.Machine.execCdec s
  | .cenc => Sys2Proof.Machine.execCenc s

end Sys2Proof.Machine
end

