-- ==== Sys2Proof/Machine/HostAccess.lean ====
section
/-! DEFINITION. Sys2Proof/Machine/HostAccess.lean: what each host event does (10_state.md R23, R35; 20_memory.md R51;
40_command.md R100; 70_reset_and_hazards.md R231). Each is one indivisible step (R56). -/

namespace Sys2Proof.Machine

/-- `onCmdWrite(v)` of R100: the command a CMD write starts, in the same step. An Illegal word is tested before
anything else and only sets STATUS (60_exceptions.md R202). -/
def onCmdWrite (v : Word) (s : State) : Host.Outcome State Fault Refusal :=
  match decodeCmd v with
  | .ok i => exec i s
  | .error _ => .next (s.commitFail .illegalCommand)

/-- A host read of the register window (R35). It has no side effect (R57). -/
def hostRegRead (offset width : Nat) (s : State) : Host.Outcome State Fault Refusal :=
  if regAccessAllowed offset width then .next (s.setReadData (s.readOffset offset))
  else .fault .stuckRegisterAccess

/-- A host write of the register window (R35): CMD starts a command (R23), a reserved offset ignores it (R34). -/
def hostRegWrite (offset width : Nat) (data : HostData) (s : State) : Host.Outcome State Fault Refusal :=
  if regAccessAllowed offset width then
    match RegName.atOffset offset with
    | some .cmd => onCmdWrite (s.dataValue data) s
    | some r => .next (s.writeReg r (s.dataValue data))
    | none => .next s
  else .fault .stuckRegisterAccess

/-- A host read of IN or OUT (R51), one drawing read (R38). The value is zero-extended to 32 bits. -/
def hostMemRead (space : Space) (offset width : Nat) (s : State) : Host.Outcome State Fault Refusal :=
  if memAccessAllowed (space.size s.cfg) offset width then
    .next (s.setReadData ((s.mem space).readLE s.draws offset width)).nextDraw
  else .fault .stuckMemoryAccess

/-- A host write of IN or OUT (R51). -/
def hostMemWrite (space : Space) (offset width : Nat) (data : HostData) (s : State) :
    Host.Outcome State Fault Refusal :=
  if memAccessAllowed (space.size s.cfg) offset width then
    .next (s.setMem space ((s.mem space).writeLE offset width (s.dataValue data)))
  else .fault .stuckMemoryAccess

/-- The effect of one host event. -/
def hostEvent (e : HostEvent) (s : State) : Host.Outcome State Fault Refusal :=
  match e with
  | .regRead offset width => hostRegRead offset width s
  | .regWrite offset width data => hostRegWrite offset width data s
  | .memRead space offset width => hostMemRead space offset width s
  | .memWrite space offset width data => hostMemWrite space offset width data s
  | .reset => .next s.resetBlock

/-- The host event with which a command word reaches the block: a 32-bit write of it to CMD (R23). -/
def cmdWrite (v : Word) : HostEvent :=
  .regWrite RegName.cmd.offset 4 (.imm v)

/-- One step of the whole: the next host event happens. With none to come nothing changes, because the block takes no
step of its own (R20, R219). -/
def hostStep (s : State) : Host.Outcome State Fault Refusal :=
  match s.pending with
  | [] => .next s
  | e :: rest => hostEvent e { s with pending := rest }

end Sys2Proof.Machine
end

