-- ==== Sys2Proof/Machine/Step.lean ====
section
/-! DEFINITION. Sys2Proof/Machine/Step.lean: the one step of the machine (10_state.md R20), and where it takes its next
command word from. -/

namespace Sys2Proof.Machine

/-- One step: the next host event (Sys2Proof/Machine/HostAccess.lean). -/
def step (s : State) : Host.Outcome State Fault Refusal := hostStep s

/-- The block fetches nothing (20_memory.md R62): its next command word is the data of the host's next CMD write. So the
word is placed by putting that write first among the host's coming events. notes/assumptions/12.md. -/
def State.withFetchWord (s : State) (nbits w : Nat) : State :=
  { s with pending := cmdWrite (BitVec.ofNat 32 (w % 2 ^ nbits)) :: s.pending }

end Sys2Proof.Machine
end

