-- ==== Sys2Proof/Machine/Assembler.lean ====
section
/-! DEFINITION. Sys2Proof/Machine/Assembler.lean: the host's assembler (30_encoding.md R86–R88): the lines of a host
program and the host events they stand for, the mnemonics and their words, and the pseudo-instructions. The text
itself is not parsed: a line is a term. notes/assumptions/13.md. -/

namespace Sys2Proof.Machine

/-- One line of a host program (R86). -/
inductive Line where
  /-- `wr NAME, imm32`. -/
  | wr (name : RegName) (imm : Word)
  /-- `rd NAME`. -/
  | rd (name : RegName)
  /-- `sb SPACE, off, imm8`. -/
  | sb (space : Space) (off : Nat) (imm : BitVec 8)
  /-- `sh SPACE, off, imm16`. -/
  | sh (space : Space) (off : Nat) (imm : BitVec 16)
  /-- `sw SPACE, off, imm32`. -/
  | sw (space : Space) (off : Nat) (imm : BitVec 32)
  /-- `lb SPACE, off`. -/
  | lb (space : Space) (off : Nat)
  /-- `lh SPACE, off`. -/
  | lh (space : Space) (off : Nat)
  /-- `lw SPACE, off`. -/
  | lw (space : Space) (off : Nat)
  /-- `cmd MNEMONIC`. -/
  | cmd (i : Instr)
  /-- `sb SPACE, off, <value read>` of COPY (R88): the byte the latest read returned. -/
  | sbRead (space : Space) (off : Nat)
  deriving DecidableEq, Repr

/-- The host access a line stands for (R86). -/
def Line.event : Line → HostEvent
  | .wr name imm => .regWrite name.offset 4 (.imm imm)
  | .rd name => .regRead name.offset 4
  | .sb space off imm => .memWrite space off 1 (.imm (imm.setWidth 32))
  | .sh space off imm => .memWrite space off 2 (.imm (imm.setWidth 32))
  | .sw space off imm => .memWrite space off 4 (.imm imm)
  | .lb space off => .memRead space off 1
  | .lh space off => .memRead space off 2
  | .lw space off => .memRead space off 4
  | .cmd i => cmdWrite (encode i)
  | .sbRead space off => .memWrite space off 1 .lastRead

/-- The pseudo-instructions (R88). -/
inductive Pseudo where
  /-- `TDEC d, tpr, len`. -/
  | tdec (d : Depth) (tpr len : Word)
  /-- `TENC d, w, h`. -/
  | tenc (d : Depth) (w h : Word)
  /-- `CDEC len`. -/
  | cdec (len : Word)
  /-- `CENC n`. -/
  | cenc (n : Word)
  /-- `FILL SPACE, off, b0 b1 … bk`. -/
  | fill (space : Space) (off : Nat) (bytes : List Byte)
  /-- `ZERO SPACE, off, n`. -/
  | zero (space : Space) (off n : Nat)
  /-- `COPY n`. -/
  | copy (n : Nat)
  deriving DecidableEq, Repr

/-- `tdec.d` (R87). -/
def tdecAt : Depth → Instr
  | .bpp4 => .tdec4
  | .bpp8 => .tdec8

/-- `tenc.d` (R87). -/
def tencAt : Depth → Instr
  | .bpp4 => .tenc4
  | .bpp8 => .tenc8

/-- `FILL` of R88: one `sb` per byte, at rising offsets. -/
def fillLines (space : Space) : Nat → List Byte → List Line
  | _, [] => []
  | off, b :: bs => .sb space off b :: fillLines space (off + 1) bs

/-- The exact expansion of a pseudo-instruction, in order (R88). -/
def Pseudo.expand : Pseudo → List Line
  | .tdec d tpr len => [.wr .inLen len, .wr .argA tpr, .cmd (tdecAt d)]
  | .tenc d w h => [.wr .argA w, .wr .argB h, .cmd (tencAt d)]
  | .cdec len => [.wr .inLen len, .cmd .cdec]
  | .cenc n => [.wr .argA n, .cmd .cenc]
  | .fill space off bytes => fillLines space off bytes
  | .zero space off n => (List.range n).map fun i => .sb space (off + i) 0
  | .copy n => (List.range n).flatMap fun i => [.lb .outMem i, .sbRead .inMem i]

/-- The host events of a pseudo-instruction. -/
def Pseudo.events (p : Pseudo) : List HostEvent := p.expand.map Line.event

/-- The mnemonic of a command (R87). -/
def mnemonicOf : Instr → String
  | .tdec4 => "tdec.4"
  | .tdec8 => "tdec.8"
  | .tenc4 => "tenc.4"
  | .tenc8 => "tenc.8"
  | .cdec => "cdec"
  | .cenc => "cenc"

/-- Every command. -/
def allInstr : List Instr := [.tdec4, .tdec8, .tenc4, .tenc8, .cdec, .cenc]

/-- The word an assembler emits for a mnemonic (R87). -/
def assembleMnemonic (m : String) : Option Word :=
  (allInstr.find? fun i => mnemonicOf i == m).map encode

/-- The eight hexadecimal digits of a word, the most significant first. -/
def hexDigits (v : Word) : List Char :=
  [7, 6, 5, 4, 3, 2, 1, 0].map fun k => (Nat.digitChar (v.extractLsb' (4 * k) 4).toNat).toUpper

/-- What a disassembler prints for a word (R87): the mnemonic, `cdec` for 0x13 and `cenc` for 0x14 too, and
`.word 0x????????` for an illegal word. The digits' case is the model's choice, notes/assumptions/13.md. -/
def disassemble (v : Word) : String :=
  match decodeCmd v with
  | .ok i => mnemonicOf i
  | .error _ => ".word 0x" ++ String.ofList (hexDigits v)

end Sys2Proof.Machine
end

