-- ==== Sys2Proof/Safety.lean ====
section
/-! DEFINITION. Sys2Proof/Safety.lean: the invariant of the machine and what counts as a safe run, in the terms the
statements use. -/

namespace Sys2Proof.Machine

/-- What every step keeps. The sizes are those 00_scope.md R7 allows, and both memories keep their canonical form.
RES_LEN delimits bytes of OUT that exist and are written (10_state.md R28, R37; 70_reset_and_hazards.md R242). RES_W and
RES_H are multiples of 8 (41_tile_codec.md R129, R131; 42_color_codec.md R170, R171). While no command has run
(DONE = 0), CODE is Ok and no result exists (10_state.md R24, 70_reset_and_hazards.md R241). -/
structure State.Inv (s : State) : Prop where
  sizes : s.cfg.legal
  inMem : s.inMem.wf s.cfg.inSize
  outMem : s.outMem.wf s.cfg.outSize
  resFits : s.resLen.toNat ≤ s.cfg.outSize
  resWritten : ∀ a, a < s.resLen.toNat → s.outMem.read a ≠ none
  resW : s.resW.toNat % 8 = 0
  resH : s.resH.toNat % 8 = 0
  fresh : s.done = false →
    s.code = .ok ∧ s.resLen = 0 ∧ s.resW = 0 ∧ s.resH = 0 ∧ s.resCount = 0

/-- Every host event still to come has an effect (10_state.md R35, 20_memory.md R51), so the host will not get stuck. -/
def State.hostAllowed (s : State) : Prop :=
  ∀ e ∈ s.pending, e.allowed s.cfg = true

/-- `n` steps of the machine, as the host's interface runs it. -/
def run (n : Nat) (s : State) : Host.Outcome State Fault Refusal := Sys2Proof.core.run n s

/-- A safe run of `n` steps: it ends in a state, with no fault and no refusal. -/
def State.runsSafely (s : State) (n : Nat) : Prop :=
  ∃ t, run n s = .next t

end Sys2Proof.Machine
end

