-- ==== Sys2Proof/Certificates/Slice0/Obligations.lean ====
section
/-! DEFINITION. Sys2Proof/Certificates/Slice0/Obligations.lean: the statements for the provers. The numbers of the rules
are those of spec/; arithmetic is written out in the statements from the rules, not through the model's datapath. -/

namespace Sys2Proof.Certificates

open Sys2Proof.Machine

/-- The byte of IN that a command running at `s` computes with from offset `a`: the written byte, or the command's free
draw for `a` where IN is unwritten (R38, R101). Nothing is known of a draw, so a statement about it holds for every
value. -/
def inputByte (s : State) (a : Nat) : Byte :=
  match s.inMem.read a with
  | some b => b
  | none => Config.freeByte s.draws a

/-- What no command changes (R102, R103): the parameters, the operand registers, IN, and the model's own fields that
belong to the host. -/
def sameOperands (s t : State) : Prop :=
  t.cfg = s.cfg ∧ t.inLen = s.inLen ∧ t.argA = s.argA ∧ t.argB = s.argB ∧
    (∀ a, t.inMem.read a = s.inMem.read a) ∧ t.pending = s.pending ∧ t.readData = s.readData

/-- The registers after a successful command (R24, R28–R31, R102), with nothing of OUT changed from offset `len` on. -/
def committed (s t : State) (len w h count : Nat) : Prop :=
  t.code = .ok ∧ t.done = true ∧ t.resLen.toNat = len ∧ t.resW.toNat = w ∧ t.resH.toNat = h ∧
    t.resCount.toNat = count ∧ (∀ a, len ≤ a → t.outMem.read a = s.outMem.read a)

/-- `s` with the outcome of a command that failed before it read IN (R103). -/
def failed (s : State) (c : StatusCode) : State := { s with code := c, done := true }

/-- `s` with its next host event taken from the list. -/
def taken (s : State) (rest : List HostEvent) : State := { s with pending := rest }

/-- IN of `s'` holds what OUT of `t` holds in its first `n` bytes: the host has copied them (R243). -/
def copied (t s' : State) (n : Nat) : Prop :=
  s'.cfg = t.cfg ∧ ∀ a, a < n → s'.inMem.read a = t.outMem.read a

/-- The table of R230 for a machine with sizes `c`: the registers, what every offset without storage reads, and every
byte of IN and OUT unwritten. -/
def asAfterReset (c : Config) (t : State) : Prop :=
  t.cfg = c ∧ t.code = .ok ∧ t.done = false ∧ t.readOffset 0x04 = 0 ∧ t.inLen = 0 ∧ t.argA = 0 ∧ t.argB = 0 ∧
    t.resLen = 0 ∧ t.resW = 0 ∧ t.resH = 0 ∧ t.resCount = 0 ∧
    (∀ a, t.inMem.read a = none) ∧ (∀ a, t.outMem.read a = none) ∧
    t.readOffset 0x00 = 0 ∧ (∀ offset, 0x2C ≤ offset → t.readOffset offset = 0) ∧
    t.readOffset 0x24 = BitVec.ofNat 32 c.inSize ∧ t.readOffset 0x28 = BitVec.ofNat 32 c.outSize

/-- Bytes of one tile (R120). -/
def tileBytes : Depth → Nat
  | .bpp4 => 32
  | .bpp8 => 64

end Sys2Proof.Certificates

open Sys2Proof Sys2Proof.Machine Sys2Proof.Certificates

/-! The command word (30_encoding.md). -/

/-- R84's table of words, and some illegal words of 95_test_vectors.md §2.1. -/
def Obligations.CommandWordsDecodeAsTheTableSays : Prop :=
  decodeCmd 0x00000001 = .ok .tdec4 ∧ decodeCmd 0x00000011 = .ok .tdec8 ∧
  decodeCmd 0x00000002 = .ok .tenc4 ∧ decodeCmd 0x00000012 = .ok .tenc8 ∧
  decodeCmd 0x00000003 = .ok .cdec ∧ decodeCmd 0x00000013 = .ok .cdec ∧
  decodeCmd 0x00000004 = .ok .cenc ∧ decodeCmd 0x00000014 = .ok .cenc ∧
  (∀ w ∈ [0x00000000, 0x00000005, 0x00000017, 0x00000009, 0x00000021, 0x80000003],
    ∀ i, decodeCmd (BitVec.ofNat 32 w) ≠ .ok i)

/-- R84: every 32-bit word has one outcome, and exactly eight words are legal. -/
def Obligations.ExactlyEightCommandWordsAreLegal : Prop :=
  ∀ w : Word,
    (w = 0x00000001 → decodeCmd w = .ok .tdec4) ∧ (w = 0x00000011 → decodeCmd w = .ok .tdec8) ∧
    (w = 0x00000002 → decodeCmd w = .ok .tenc4) ∧ (w = 0x00000012 → decodeCmd w = .ok .tenc8) ∧
    (w = 0x00000003 ∨ w = 0x00000013 → decodeCmd w = .ok .cdec) ∧
    (w = 0x00000004 ∨ w = 0x00000014 → decodeCmd w = .ok .cenc) ∧
    (w ∉ [0x00000001, 0x00000011, 0x00000002, 0x00000012, 0x00000003, 0x00000013, 0x00000004, 0x00000014] →
      ∃ e, decodeCmd w = .error e)

/-- The decoder and the encoder agree on all words: a word decodes to `i` exactly when its bits under the mask of `i`'s
row of opcode_table.json are those of `i`'s encoded word. -/
def Obligations.DecodeAcceptsExactlyTheMaskedEncoding : Prop :=
  ∀ (w : Word) (i : Instr), decodeCmd w = .ok i ↔ w &&& encodingMask i = encode i

/-- Decoding the encoded word of a command gives the command back, through the decoder on table words too. -/
def Obligations.DecodeUndoesEncode : Prop :=
  ∀ i : Instr, i.wellFormed = true →
    decodeCmd (encode i) = .ok i ∧ decodeTableWord 32 (encode i).toNat = some i

/-- R82: the DEPTH bit changes nothing in a colour command. -/
def Obligations.ColourCommandsIgnoreDepth : Prop :=
  ∀ s : State,
    onCmdWrite 0x00000013 s = onCmdWrite 0x00000003 s ∧ onCmdWrite 0x00000014 s = onCmdWrite 0x00000004 s

/-! One step (10_state.md R20, 40_command.md R100). -/

/-- A 32-bit host write to CMD of a word that decodes to `i` runs `i`, in the same step, on the state with the write
taken from the host's list; and so does the word `withFetchWord` places. -/
def Obligations.StepRunsDecodedCommand : Prop :=
  (∀ (s : State) (data : HostData) (rest : List HostEvent) (i : Instr),
    s.pending = .regWrite 0x00 4 data :: rest → decodeCmd (s.dataValue data) = .ok i →
    step s = exec i (taken s rest)) ∧
  (∀ (s : State) (w : Nat) (i : Instr), decodeTableWord 32 w = some i → step (s.withFetchWord 32 w) = exec i s)

/-- R202: a word whose OP is reserved, or with bit 3 or a bit of [31:5] set, sets STATUS to IllegalCommand and changes
nothing else, whatever the operand registers and IN hold. -/
def Obligations.IllegalWordOnlyReportsIllegalCommand : Prop :=
  ∀ (s : State) (data : HostData) (rest : List HostEvent),
    s.pending = .regWrite 0x00 4 data :: rest →
    (let w := s.dataValue data
     w.extractLsb' 0 3 = 0b000 ∨ w.extractLsb' 0 3 = 0b101 ∨ w.extractLsb' 0 3 = 0b110 ∨ w.extractLsb' 0 3 = 0b111 ∨
       w.getLsbD 3 = true ∨ w.extractLsb' 5 27 ≠ 0) →
    step s = .next (failed (taken s rest) .illegalCommand)

/-- A CMD write is never held or refused, for any word and in any state: it completes in the one step, with DONE set. -/
def Obligations.EveryCommandWordCompletesInOneStep : Prop :=
  ∀ (s : State) (data : HostData) (rest : List HostEvent),
    s.pending = .regWrite 0x00 4 data :: rest →
    ∃ t, step s = .next t ∧ t.done = true ∧ sameOperands (taken s rest) t

/-- With no host access and no reset nothing changes (the model's idle step, notes/assumptions/3.md). -/
def Obligations.NothingChangesWithoutHostEvent : Prop :=
  ∀ s : State, s.pending = [] → step s = .next s

/-! Host accesses to registers (10_state.md). -/

/-- The read values of the register map, and that a read changes nothing of the block. -/
def Obligations.RegisterReadsFollowTheMap : Prop :=
  ∀ (s : State) (offset : Nat) (rest : List HostEvent),
    s.pending = .regRead offset 4 :: rest → offset % 4 = 0 → offset < 0x100 →
    step s = .next { s with
      pending := rest
      readData :=
        if offset = 0x00 then 0
        else if offset = 0x04 then statusWord s.code s.done
        else if offset = 0x08 then s.inLen
        else if offset = 0x0C then s.argA
        else if offset = 0x10 then s.argB
        else if offset = 0x14 then s.resLen
        else if offset = 0x18 then s.resW
        else if offset = 0x1C then s.resH
        else if offset = 0x20 then s.resCount
        else if offset = 0x24 then BitVec.ofNat 32 s.cfg.inSize
        else if offset = 0x28 then BitVec.ofNat 32 s.cfg.outSize
        else 0 }

/-- The fields of STATUS: CODE at [3:0] with the numbers of R201, DONE at [8], the other bits 0. -/
def Obligations.StatusFieldsStandAtTheirBits : Prop :=
  ∀ (c : StatusCode) (d : Bool),
    (statusWord c d).extractLsb' 4 4 = 0 ∧ (statusWord c d).extractLsb' 9 23 = 0 ∧
    (statusWord c d).getLsbD 8 = d ∧
    ((statusWord c d).extractLsb' 0 4).toNat =
      (match c with
       | .ok => 0
       | .malformedBuffer => 1
       | .invalidDimensions => 2
       | .pixelIndexOutOfRange => 3
       | .unsupportedPaletteSize => 4
       | .invalidTilesPerRow => 5
       | .illegalCommand => 6
       | .capacityExceeded => 7)

/-- A register write other than one to CMD stores all 32 bits in IN_LEN, ARG_A or ARG_B, and is ignored at every other
offset of the window: STATUS, the RES and CAP registers and the reserved offsets. -/
def Obligations.RegisterWritesReachOnlyTheOperands : Prop :=
  ∀ (s : State) (offset : Nat) (data : HostData) (rest : List HostEvent),
    s.pending = .regWrite offset 4 data :: rest → offset % 4 = 0 → offset < 0x100 → offset ≠ 0x00 →
    step s = .next { s with
      pending := rest
      inLen := if offset = 0x08 then s.dataValue data else s.inLen
      argA := if offset = 0x0C then s.dataValue data else s.argA
      argB := if offset = 0x10 then s.dataValue data else s.argB }

/-- A register access that is not a 32-bit access at a multiple of 4 below 0x100 has no effect defined: the model stops
there (the host is stuck, notes/assumptions/7.md). -/
def Obligations.UndefinedRegisterAccessStops : Prop :=
  ∀ (s : State) (offset width : Nat) (data : HostData) (rest : List HostEvent),
    ¬ (width = 4 ∧ offset % 4 = 0 ∧ offset < 0x100) →
    (s.pending = .regRead offset width :: rest → step s = .fault .stuckRegisterAccess) ∧
    (s.pending = .regWrite offset width data :: rest → step s = .fault .stuckRegisterAccess)

/-! Host accesses to IN and OUT (20_memory.md). -/

/-- A read of 1, 2 or 4 bytes returns them little-endian; a byte that is unwritten reads as the free draw for this read
and its offset, of which nothing is known. Nothing of the block changes. -/
def Obligations.MemoryReadReturnsBytesLittleEndian : Prop :=
  ∀ (s : State) (space : Space) (offset width : Nat) (rest : List HostEvent),
    s.pending = .memRead space offset width :: rest →
    (width = 1 ∨ width = 2 ∨ width = 4) → offset % width = 0 → offset + width ≤ space.size s.cfg →
    ∃ v : Word,
      step s = .next { s with pending := rest, readData := v, draws := s.draws + 1 } ∧
      v.toNat < 2 ^ (8 * width) ∧
      (∀ k, k < width → ∀ b, (s.mem space).read (offset + k) = some b → v.extractLsb' (8 * k) 8 = b) ∧
      (∀ k, k < width → (s.mem space).read (offset + k) = none →
        v.extractLsb' (8 * k) 8 = Config.freeByte s.draws (offset + k))

/-- A write of 1, 2 or 4 bytes stores `v[8k+7:8k]` at offset + k and leaves every other byte of the space, the other
space and every register as they were. -/
def Obligations.MemoryWriteStoresBytesLittleEndian : Prop :=
  ∀ (s : State) (space : Space) (offset width : Nat) (data : HostData) (rest : List HostEvent),
    s.pending = .memWrite space offset width data :: rest →
    (width = 1 ∨ width = 2 ∨ width = 4) → offset % width = 0 → offset + width ≤ space.size s.cfg →
    ∃ m : Memory,
      (step s = .next (match space with
        | .inMem => { s with pending := rest, inMem := m }
        | .outMem => { s with pending := rest, outMem := m })) ∧
      (∀ k, k < width → m.read (offset + k) = some ((s.dataValue data).extractLsb' (8 * k) 8)) ∧
      (∀ a, a < offset ∨ offset + width ≤ a → m.read a = (s.mem space).read a)

/-- R63: what the host wrote, it reads back: a read of the same bytes in the next access returns the written value. -/
def Obligations.HostReadsBackWhatItWrote : Prop :=
  ∀ (s : State) (space : Space) (offset width : Nat) (data : HostData) (rest : List HostEvent),
    s.pending = .memWrite space offset width data :: .memRead space offset width :: rest →
    (width = 1 ∨ width = 2 ∨ width = 4) → offset % width = 0 → offset + width ≤ space.size s.cfg →
    ∃ m t : State, step s = .next m ∧ step m = .next t ∧ t.pending = rest ∧
      t.readData.toNat = (s.dataValue data).toNat % 2 ^ (8 * width)

/-- A misaligned access to IN or OUT, one of another width, or one past the end has no effect defined: the model stops
there (the host is stuck, notes/assumptions/7.md). -/
def Obligations.UndefinedMemoryAccessStops : Prop :=
  ∀ (s : State) (space : Space) (offset width : Nat) (data : HostData) (rest : List HostEvent),
    ¬ ((width = 1 ∨ width = 2 ∨ width = 4) ∧ offset % width = 0 ∧ offset + width ≤ space.size s.cfg) →
    (s.pending = .memRead space offset width :: rest → step s = .fault .stuckMemoryAccess) ∧
    (s.pending = .memWrite space offset width data :: rest → step s = .fault .stuckMemoryAccess)

/-! Reset (70_reset_and_hazards.md). -/

/-- R230: a reset leaves the state of the rule's table, whatever the state was, and so does `State.resetWith`, at any
sizes. -/
def Obligations.ResetLeavesTheResetState : Prop :=
  (∀ (s : State) (rest : List HostEvent), s.pending = .reset :: rest → ∃ t, step s = .next t ∧ asAfterReset s.cfg t) ∧
  (∀ c : Config, asAfterReset c (State.resetWith c))

/-- The commands at reset values, at any sizes: TILE_DECODE reports InvalidTilesPerRow, TILE_ENCODE succeeds with an
empty output, the colour commands report UnsupportedPaletteSize. -/
def Obligations.CommandsAtResetValues : Prop :=
  ∀ (c : Config) (d : Depth), let r := State.resetWith c
    exec (tdecAt d) r = .next (failed r .invalidTilesPerRow) ∧
    (∃ t, exec (tencAt d) r = .next t ∧ committed r t 0 0 0 0 ∧ sameOperands r t ∧ (∀ a, t.outMem.read a = none)) ∧
    exec .cdec r = .next (failed r .unsupportedPaletteSize) ∧
    exec .cenc r = .next (failed r .unsupportedPaletteSize)

/-! Errors and their order (60_exceptions.md). -/

/-- TILE_DECODE's errors in the order of R209, each changing only STATUS. -/
def Obligations.TileDecodeReportsErrorsInOrder : Prop :=
  ∀ (d : Depth) (s : State),
    let T := s.argA.toNat
    let L := s.inLen.toNat
    let H := (L / tileBytes d + T - 1) / T * 8
    (T = 0 → exec (tdecAt d) s = .next (failed s .invalidTilesPerRow)) ∧
    (T ≠ 0 → L % tileBytes d ≠ 0 → exec (tdecAt d) s = .next (failed s .malformedBuffer)) ∧
    (T ≠ 0 → L % tileBytes d = 0 → (s.cfg.inSize < L ∨ 2 ^ 32 ≤ T * 8 ∨ s.cfg.outSize < T * 8 * H) →
      exec (tdecAt d) s = .next (failed s .capacityExceeded))

/-- TILE_ENCODE's errors in the order of R209, each changing only STATUS; R128: at 4 bpp any pixel above 15 fails the
whole command and OUT stays, at 8 bpp none does. -/
def Obligations.TileEncodeReportsErrorsInOrder : Prop :=
  ∀ (d : Depth) (s : State),
    let W := s.argA.toNat
    let H := s.argB.toNat
    let fits := W * H ≤ s.cfg.inSize ∧ W / 8 * (H / 8) * tileBytes d ≤ s.cfg.outSize
    ((W % 8 ≠ 0 ∨ H % 8 ≠ 0) → exec (tencAt d) s = .next (failed s .invalidDimensions)) ∧
    (W % 8 = 0 → H % 8 = 0 → ¬ fits → exec (tencAt d) s = .next (failed s .capacityExceeded)) ∧
    (W % 8 = 0 → H % 8 = 0 → fits → d = .bpp4 → (∃ a, a < W * H ∧ 15 < (inputByte s a).toNat) →
      ∃ n, exec (tencAt d) s = .next { failed s .pixelIndexOutOfRange with draws := n }) ∧
    (d = .bpp8 → ∃ t, exec (tencAt d) s = .next t ∧ t.code ≠ .pixelIndexOutOfRange)

/-- R207: the palette sizes. With sizes R7 allows the colour commands report no other error. -/
def Obligations.ColourCommandsRejectOtherPaletteSizes : Prop :=
  ∀ s : State,
    (s.inLen.toNat ∉ [32, 512] → exec .cdec s = .next (failed s .unsupportedPaletteSize)) ∧
    (s.argA.toNat ∉ [16, 256] → exec .cenc s = .next (failed s .unsupportedPaletteSize)) ∧
    (s.cfg.legal → s.inLen.toNat ∈ [32, 512] → ∃ t, exec .cdec s = .next t ∧ t.code = .ok) ∧
    (s.cfg.legal → s.argA.toNat ∈ [16, 256] → ∃ t, exec .cenc s = .next t ∧ t.code = .ok)

/-- The "raised by" column of R201's table: which commands can end with which code. -/
def Obligations.ErrorCodesComeOnlyFromTheirCommands : Prop :=
  ∀ (i : Instr) (s : State), s.cfg.legal → ∃ t, exec i s = .next t ∧
    (t.code = .malformedBuffer → i = .tdec4 ∨ i = .tdec8) ∧
    (t.code = .invalidDimensions → i = .tenc4 ∨ i = .tenc8) ∧
    (t.code = .pixelIndexOutOfRange → i = .tenc4) ∧
    (t.code = .unsupportedPaletteSize → i = .cdec ∨ i = .cenc) ∧
    (t.code = .invalidTilesPerRow → i = .tdec4 ∨ i = .tdec8) ∧
    (t.code = .capacityExceeded → i = .tdec4 ∨ i = .tdec8 ∨ i = .tenc4 ∨ i = .tenc8) ∧
    t.code ≠ .illegalCommand

/-- R103: for every command word, a command that fails writes only STATUS (`draws` is the model's own count of drawing
reads). -/
def Obligations.FailedCommandChangesOnlyStatus : Prop :=
  ∀ (v : Word) (s : State), ∃ t, onCmdWrite v s = .next t ∧ t.done = true ∧
    (t.code ≠ .ok → t = { s with code := t.code, done := true, draws := t.draws })

/-- R242: a command that succeeds writes only OUT[0 … RES_LEN − 1], all of it, inside OUT, and besides OUT only STATUS
and the RES registers. -/
def Obligations.SuccessfulCommandWritesOnlyItsOutput : Prop :=
  ∀ (i : Instr) (s : State), s.cfg.legal → ∃ t, exec i s = .next t ∧ sameOperands s t ∧
    (t.code = .ok → t.done = true ∧ t.resLen.toNat ≤ s.cfg.outSize ∧
      (∀ a, a < t.resLen.toNat → ∃ b, t.outMem.read a = some b) ∧
      (∀ a, t.resLen.toNat ≤ a → t.outMem.read a = s.outMem.read a))

/-! The tile commands' results (41_tile_codec.md). -/

/-- TILE_DECODE at 4 bpp: raster pixel (x, y) is the low or high nibble of its byte (R125), 0 in the padding tiles. -/
def Obligations.TileDecode4UnpacksNibbles : Prop :=
  ∀ s : State, s.cfg.legal →
    let T := s.argA.toNat
    let L := s.inLen.toNat
    let W := T * 8
    let H := (L / 32 + T - 1) / T * 8
    T ≠ 0 → L % 32 = 0 → L ≤ s.cfg.inSize → W ≤ 2 ^ 32 - 1 → W * H ≤ s.cfg.outSize →
    ∃ t, exec .tdec4 s = .next t ∧ committed s t (W * H) W H (L / 32) ∧ sameOperands s t ∧
      ∀ x y, x < W → y < H → ∀ tile p, tile = y / 8 * T + x / 8 → p = y % 8 * 8 + x % 8 →
        (L / 32 ≤ tile → t.outMem.read (y * W + x) = some 0) ∧
        (tile < L / 32 → p % 2 = 0 →
          t.outMem.read (y * W + x) = some (BitVec.ofNat 8 ((inputByte s (tile * 32 + p / 2)).toNat % 16))) ∧
        (tile < L / 32 → p % 2 = 1 →
          t.outMem.read (y * W + x) = some (BitVec.ofNat 8 ((inputByte s (tile * 32 + p / 2)).toNat / 16)))

/-- TILE_DECODE at 8 bpp: raster pixel (x, y) is the whole byte at `t × 64 + p` (R124), 0 in the padding tiles. -/
def Obligations.TileDecode8MovesWholeBytes : Prop :=
  ∀ s : State, s.cfg.legal →
    let T := s.argA.toNat
    let L := s.inLen.toNat
    let W := T * 8
    let H := (L / 64 + T - 1) / T * 8
    T ≠ 0 → L % 64 = 0 → L ≤ s.cfg.inSize → W ≤ 2 ^ 32 - 1 → W * H ≤ s.cfg.outSize →
    ∃ t, exec .tdec8 s = .next t ∧ committed s t (W * H) W H (L / 64) ∧ sameOperands s t ∧
      ∀ x y, x < W → y < H → ∀ tile p, tile = y / 8 * T + x / 8 → p = y % 8 * 8 + x % 8 →
        (L / 64 ≤ tile → t.outMem.read (y * W + x) = some 0) ∧
        (tile < L / 64 → t.outMem.read (y * W + x) = some (inputByte s (tile * 64 + p)))

/-- TILE_ENCODE at 4 bpp: byte k of tile t packs the tile's pixels 2k (low nibble) and 2k + 1 (high nibble), R126. -/
def Obligations.TileEncode4PacksNibbles : Prop :=
  ∀ s : State, s.cfg.legal →
    let W := s.argA.toNat
    let H := s.argB.toNat
    let tc := W / 8 * (H / 8)
    let pixel := fun tile p =>
      (inputByte s ((tile / (W / 8) * 8 + p / 8) * W + (tile % (W / 8) * 8 + p % 8))).toNat
    W % 8 = 0 → H % 8 = 0 → W * H ≤ s.cfg.inSize → tc * 32 ≤ s.cfg.outSize →
    (∀ a, a < W * H → (inputByte s a).toNat ≤ 15) →
    ∃ t, exec .tenc4 s = .next t ∧ committed s t (tc * 32) W H tc ∧ sameOperands s t ∧
      ∀ tile k, tile < tc → k < 32 →
        ∃ b, t.outMem.read (tile * 32 + k) = some b ∧
          b.toNat % 16 = pixel tile (2 * k) ∧ b.toNat / 16 = pixel tile (2 * k + 1)

/-- TILE_ENCODE at 8 bpp: byte `t × 64 + p` is pixel p of tile t (R127). -/
def Obligations.TileEncode8MovesWholeBytes : Prop :=
  ∀ s : State, s.cfg.legal →
    let W := s.argA.toNat
    let H := s.argB.toNat
    let tc := W / 8 * (H / 8)
    W % 8 = 0 → H % 8 = 0 → W * H ≤ s.cfg.inSize → tc * 64 ≤ s.cfg.outSize →
    ∃ t, exec .tenc8 s = .next t ∧ committed s t (tc * 64) W H tc ∧ sameOperands s t ∧
      ∀ tile p, tile < tc → p < 64 →
        t.outMem.read (tile * 64 + p) =
          some (inputByte s ((tile / (W / 8) * 8 + p / 8) * W + (tile % (W / 8) * 8 + p % 8)))

/-- R132: encoding a raster whose pixels fit the depth and decoding the copied output with `T = W / 8` gives the raster
back; with `W = 0` the decode reports InvalidTilesPerRow. -/
def Obligations.TileEncodeThenDecodeIsIdentity : Prop :=
  ∀ (d : Depth) (s : State), s.cfg.legal →
    let W := s.argA.toNat
    let H := s.argB.toNat
    (8 ≤ W → W % 8 = 0 → H % 8 = 0 → (d = .bpp4 → ∀ a, a < W * H → (inputByte s a).toNat ≤ 15) →
      W * H ≤ s.cfg.inSize → W * H ≤ s.cfg.outSize →
      ∃ t, exec (tencAt d) s = .next t ∧ t.code = .ok ∧
        ∀ s', copied t s' t.resLen.toNat → s'.inLen = t.resLen → s'.argA.toNat = W / 8 →
          ∃ u, exec (tdecAt d) s' = .next u ∧ u.code = .ok ∧ u.resW = s.argA ∧ u.resH = s.argB ∧
            u.resLen.toNat = W * H ∧ ∀ a, a < W * H → u.outMem.read a = some (inputByte s a)) ∧
    (W = 0 → ∀ s', s'.argA.toNat = W / 8 → exec (tdecAt d) s' = .next (failed s' .invalidTilesPerRow))

/-- R133: decoding a buffer and encoding the copied raster gives the buffer back, followed by the padding tiles as zero
bytes where T does not divide the tile count. -/
def Obligations.TileDecodeThenEncodeRestoresTheBuffer : Prop :=
  ∀ (d : Depth) (s : State), s.cfg.legal →
    let T := s.argA.toNat
    let L := s.inLen.toNat
    let tc := L / tileBytes d
    let W := T * 8
    let H := (tc + T - 1) / T * 8
    T ≠ 0 → L % tileBytes d = 0 → L ≤ s.cfg.inSize → W ≤ 2 ^ 32 - 1 → W * H ≤ s.cfg.outSize → W * H ≤ s.cfg.inSize →
    ∃ t, exec (tdecAt d) s = .next t ∧ t.code = .ok ∧
      ∀ s', copied t s' t.resLen.toNat → s'.argA = t.resW → s'.argB = t.resH →
        ∃ u, exec (tencAt d) s' = .next u ∧ u.code = .ok ∧
          u.resLen.toNat = (if tc % T = 0 then L else L + (T - tc % T) * tileBytes d) ∧
          (∀ a, a < L → u.outMem.read a = some (inputByte s a)) ∧
          (∀ a, L ≤ a → a < u.resLen.toNat → u.outMem.read a = some 0)

/-- R134: TILE_DECODE at 4 bpp produces no pixel above 15, and encoding its copied raster at 4 bpp never reports
PixelIndexOutOfRange. -/
def Obligations.TileDecode4NeverExceedsFifteen : Prop :=
  ∀ s : State, s.cfg.legal → ∃ t, exec .tdec4 s = .next t ∧
    (t.code = .ok →
      (∀ a, a < t.resLen.toNat → ∃ b, t.outMem.read a = some b ∧ b.toNat ≤ 15) ∧
      ∀ s', copied t s' t.resLen.toNat → s'.argA = t.resW → s'.argB = t.resH →
        ∃ u, exec .tenc4 s' = .next u ∧ u.code ≠ .pixelIndexOutOfRange)

/-! The colour commands' results (42_color_codec.md). -/

/-- COLOR_DECODE: each channel is its five bits of the little-endian entry word, times 8 (R160, R161, R162), at the
offsets of R165. -/
def Obligations.ColourDecodeWidensFiveBitChannels : Prop :=
  ∀ s : State, s.cfg.legal → s.inLen.toNat = 32 ∨ s.inLen.toNat = 512 →
    let n := s.inLen.toNat / 2
    ∃ t, exec .cdec s = .next t ∧ committed s t (3 * n) 0 0 n ∧ sameOperands s t ∧
      ∀ i, i < n → ∀ w, w = (inputByte s (2 * i)).toNat + 256 * (inputByte s (2 * i + 1)).toNat →
        t.outMem.read (3 * i) = some (BitVec.ofNat 8 (w % 32 * 8)) ∧
        t.outMem.read (3 * i + 1) = some (BitVec.ofNat 8 (w / 32 % 32 * 8)) ∧
        t.outMem.read (3 * i + 2) = some (BitVec.ofNat 8 (w / 1024 % 32 * 8))

/-- COLOR_ENCODE: each entry word holds its channels divided by 8 (R163) at R161's positions with bit 15 = 0, low byte
first (R164). -/
def Obligations.ColourEncodeNarrowsAndPacks : Prop :=
  ∀ s : State, s.cfg.legal → s.argA.toNat = 16 ∨ s.argA.toNat = 256 →
    let n := s.argA.toNat
    ∃ t, exec .cenc s = .next t ∧ committed s t (2 * n) 0 0 n ∧ sameOperands s t ∧
      ∀ i, i < n → ∀ w, w = (inputByte s (3 * i)).toNat / 8 + (inputByte s (3 * i + 1)).toNat / 8 * 32
          + (inputByte s (3 * i + 2)).toNat / 8 * 1024 →
        t.outMem.read (2 * i) = some (BitVec.ofNat 8 (w % 256)) ∧
        t.outMem.read (2 * i + 1) = some (BitVec.ofNat 8 (w / 256)) ∧ w / 256 < 128

/-- R172: encoding a ColorTable and decoding the copied output maps each channel c to (c div 8) × 8, which is c & 0xF8,
and is c exactly when c mod 8 = 0. -/
def Obligations.ColourEncodeThenDecodeFloorsChannels : Prop :=
  ∀ s : State, s.cfg.legal → s.argA.toNat = 16 ∨ s.argA.toNat = 256 →
    ∃ t, exec .cenc s = .next t ∧ t.code = .ok ∧
      ∀ s', copied t s' t.resLen.toNat → s'.inLen = t.resLen →
        ∃ u, exec .cdec s' = .next u ∧ u.code = .ok ∧ u.resLen.toNat = 3 * s.argA.toNat ∧
          ∀ a, a < 3 * s.argA.toNat → ∃ r, u.outMem.read a = some r ∧
            r.toNat = (inputByte s a).toNat / 8 * 8 ∧ r = inputByte s a &&& 0xF8 ∧
            (r = inputByte s a ↔ (inputByte s a).toNat % 8 = 0)

/-- R173: decoding a palette and encoding the copied table with n = RES_COUNT gives the bytes back with bit 15 of every
word cleared, so it is the identity exactly when every word has bit 15 = 0. -/
def Obligations.ColourDecodeThenEncodeClearsBit15 : Prop :=
  ∀ s : State, s.cfg.legal → s.inLen.toNat = 32 ∨ s.inLen.toNat = 512 →
    ∃ t, exec .cdec s = .next t ∧ t.code = .ok ∧
      ∀ s', copied t s' t.resLen.toNat → s'.argA = t.resCount →
        ∃ u, exec .cenc s' = .next u ∧ u.code = .ok ∧ u.resLen = s.inLen ∧
          (∀ i, 2 * i + 1 < s.inLen.toNat →
            u.outMem.read (2 * i) = some (inputByte s (2 * i)) ∧
            u.outMem.read (2 * i + 1) = some (inputByte s (2 * i + 1) &&& 0x7F)) ∧
          ((∀ a, a < s.inLen.toNat → u.outMem.read a = some (inputByte s a)) ↔
            ∀ i, 2 * i + 1 < s.inLen.toNat → (inputByte s (2 * i + 1)).getLsbD 7 = false)

/-- R174: what COLOR_DECODE puts in OUT is a multiple of 8 and at most 248. -/
def Obligations.DecodedColoursAreMultiplesOfEight : Prop :=
  ∀ s : State, s.cfg.legal → ∃ t, exec .cdec s = .next t ∧
    (t.code = .ok → ∀ a, a < t.resLen.toNat →
      ∃ b, t.outMem.read a = some b ∧ b.toNat % 8 = 0 ∧ b.toNat ≤ 248)

/-! Rules about the whole machine. -/

/-- R105: the outcome of a CMD write is a function of the command word, the operand registers, the sizes and the bytes
of IN the command may read (20_memory.md R55), and of nothing else: no other byte of IN, no OUT, STATUS or RES register,
no history. -/
def Obligations.OutcomeDependsOnlyOnTheInputs : Prop :=
  ∀ (v : Word) (s s' : State),
    s'.cfg = s.cfg → s'.inLen = s.inLen → s'.argA = s.argA → s'.argB = s.argB →
    (∀ i, decodeCmd v = .ok i → ∀ a, a < (match i with
      | .tdec4 | .tdec8 | .cdec => s.inLen.toNat
      | .tenc4 | .tenc8 => s.argA.toNat * s.argB.toNat
      | .cenc => 3 * s.argA.toNat) → inputByte s' a = inputByte s a) →
    ∃ t t', onCmdWrite v s = .next t ∧ onCmdWrite v s' = .next t' ∧ t'.code = t.code ∧ t'.done = t.done ∧
      (t.code = .ok → t'.resLen = t.resLen ∧ t'.resW = t.resW ∧ t'.resH = t.resH ∧ t'.resCount = t.resCount ∧
        ∀ a, a < t.resLen.toNat → t'.outMem.read a = t.outMem.read a)

/-- The invariant holds right after reset, at every pair of sizes R7 allows, and so in `State.reset`, whose sizes are the
model's choice (notes/assumptions/1.md). -/
def Obligations.InvariantHoldsAfterReset : Prop :=
  (∀ c : Config, c.legal → (State.resetWith c).Inv) ∧ State.reset.Inv

/-- Every step keeps the invariant (`State.Inv` in Sys2Proof/Safety.lean). -/
def Obligations.EveryStepKeepsTheInvariant : Prop :=
  ∀ s t : State, s.Inv → step s = .next t → t.Inv

/-- As long as every host access to come has an effect, no number of steps stops. -/
def Obligations.AllowedHostAccessesNeverStop : Prop :=
  ∀ (s : State) (n : Nat), s.hostAllowed → s.runsSafely n

/-- A step stops exactly on a host access with no defined effect, with the fault of its kind, and never refuses. -/
def Obligations.StepStopsOnlyOnUndefinedAccess : Prop :=
  ∀ s : State,
    ((∃ t, step s = .next t) ↔ ∀ e, s.pending.head? = some e → e.allowed s.cfg = true) ∧
    (∀ r, step s ≠ .refused r)

/-- The sizes are constants, each step takes exactly the next host event from the list, and only a host read changes
the value the host has read: a reset keeps it, too (the model's choice, notes/assumptions/3.md, 5.md and 8.md). -/
def Obligations.SizesStayAndEventsAreTakenInOrder : Prop :=
  ∀ s t : State, step s = .next t → t.cfg = s.cfg ∧ t.pending = s.pending.tail ∧
    ((∀ e, s.pending.head? = some e → (∀ offset width, e ≠ .regRead offset width) ∧
      (∀ space offset width, e ≠ .memRead space offset width)) → t.readData = s.readData)

/-- IN changes only by a host write to IN, and IN_LEN, ARG_A and ARG_B only by a host write of that register, or by a
reset; no command changes them. -/
def Obligations.OnlyTheHostChangesInputs : Prop :=
  ∀ (s t : State) (e : HostEvent) (rest : List HostEvent), s.pending = e :: rest → step s = .next t → e ≠ .reset →
    ((∀ offset width data, e ≠ .memWrite .inMem offset width data) → ∀ a, t.inMem.read a = s.inMem.read a) ∧
    ((∀ data, e ≠ .regWrite 0x08 4 data) → t.inLen = s.inLen) ∧
    ((∀ data, e ≠ .regWrite 0x0C 4 data) → t.argA = s.argA) ∧
    ((∀ data, e ≠ .regWrite 0x10 4 data) → t.argB = s.argB)

/-- STATUS and the RES registers change only by a write to CMD, and OUT only by that or a host write to OUT, or by a
reset. -/
def Obligations.OnlyCommandsChangeResults : Prop :=
  ∀ (s t : State) (e : HostEvent) (rest : List HostEvent), s.pending = e :: rest → step s = .next t → e ≠ .reset →
    (∀ data, e ≠ .regWrite 0x00 4 data) →
    t.code = s.code ∧ t.done = s.done ∧ t.resLen = s.resLen ∧ t.resW = s.resW ∧ t.resH = s.resH ∧
    t.resCount = s.resCount ∧
    ((∀ offset width data, e ≠ .memWrite .outMem offset width data) → ∀ a, t.outMem.read a = s.outMem.read a)

/-! The host's assembler (30_encoding.md R87, R88). -/

/-- TDEC, TENC, CDEC and CENC write the operands their command reads and then run it. -/
def Obligations.CommandPseudoInstructionsRunTheirCommand : Prop :=
  ∀ (s : State) (rest : List HostEvent),
    (∀ d tpr len, s.pending = (Pseudo.tdec d tpr len).events ++ rest →
      run 3 s = exec (tdecAt d) { s with inLen := len, argA := tpr, pending := rest }) ∧
    (∀ d w h, s.pending = (Pseudo.tenc d w h).events ++ rest →
      run 3 s = exec (tencAt d) { s with argA := w, argB := h, pending := rest }) ∧
    (∀ len, s.pending = (Pseudo.cdec len).events ++ rest →
      run 2 s = exec .cdec { s with inLen := len, pending := rest }) ∧
    (∀ n, s.pending = (Pseudo.cenc n).events ++ rest →
      run 2 s = exec .cenc { s with argA := n, pending := rest })

/-- COPY n moves the first n bytes of OUT to IN and changes nothing else of the block: the only way a result becomes an
input (R243). -/
def Obligations.CopyMovesOutputToInput : Prop :=
  ∀ (s : State) (n : Nat) (rest : List HostEvent),
    s.pending = (Pseudo.copy n).events ++ rest → n ≤ s.cfg.inSize → n ≤ s.cfg.outSize →
    (∀ a, a < n → s.outMem.read a ≠ none) →
    ∃ t : State, run (2 * n) s = .next t ∧
      (∀ a, a < n → t.inMem.read a = s.outMem.read a) ∧ (∀ a, n ≤ a → t.inMem.read a = s.inMem.read a) ∧
      t = { s with inMem := t.inMem, pending := rest, draws := t.draws, readData := t.readData }

/-- FILL stores its bytes at rising offsets and nothing else, and ZERO n is FILL with n zero bytes. -/
def Obligations.FillStoresItsBytes : Prop :=
  (∀ (s : State) (space : Space) (off : Nat) (bytes : List Byte) (rest : List HostEvent),
    s.pending = (Pseudo.fill space off bytes).events ++ rest → off + bytes.length ≤ space.size s.cfg →
    ∃ m : Memory, (run bytes.length s = .next (match space with
        | .inMem => { s with pending := rest, inMem := m }
        | .outMem => { s with pending := rest, outMem := m })) ∧
      (∀ k (h : k < bytes.length), m.read (off + k) = some bytes[k]) ∧
      (∀ a, a < off ∨ off + bytes.length ≤ a → m.read a = (s.mem space).read a)) ∧
  (∀ (space : Space) (off n : Nat),
    (Pseudo.zero space off n).expand = (Pseudo.fill space off (List.replicate n 0)).expand)
end

