-- ==== Sys2Proof/Laws/Bits.lean ====
section
/-! SUPPORT. Sys2Proof/Laws/Bits.lean: the bit functions as arithmetic on natural numbers: the command word's fields
(30_encoding.md R80), nibbles (41_tile_codec.md R125, R126) and colour channels (42_color_codec.md R160–R164). -/

namespace Sys2Proof

/-- The fields of a command word are enough to tell it (R80). -/
theorem wordOf_fieldsOf (w : Word) : wordOf (fieldsOf w) = w := by
  apply BitVec.eq_of_getLsbD_eq
  intro i hi
  simp only [wordOf, fieldsOf, BitVec.getLsbD_append, BitVec.getLsbD_extractLsb']
  split
  · simp_all
  · split
    · rename_i h h'
      have : i = 3 := by omega
      subst this; rfl
    · split
      · have : i = 4 := by omega
        subst this; rfl
      · have e : 5 + (i - 3 - 1 - 1) = i := by omega
        have : i - 3 - 1 - 1 < 27 := by omega
        simp [e, this]

theorem fieldsOf_wordOf (f : CmdFields) : fieldsOf (wordOf f) = f := by
  obtain ⟨op, rsv0, depth, rsv1⟩ := f
  have h1 := op.isLt
  have h2 := rsv0.isLt
  have h3 := depth.isLt
  have h4 := rsv1.isLt
  simp only [fieldsOf, wordOf, CmdFields.mk.injEq]
  refine ⟨?_, ?_, ?_, ?_⟩ <;> apply BitVec.eq_of_toNat_eq <;>
    simp only [BitVec.extractLsb'_toNat, BitVec.toNat_append, Nat.shiftRight_eq_div_pow, Nat.shiftLeft_eq] <;>
    rw [← Nat.shiftLeft_eq, ← Nat.shiftLeft_eq, ← Nat.shiftLeft_eq, ← Nat.shiftLeft_add_eq_or_of_lt h1,
      ← Nat.shiftLeft_add_eq_or_of_lt h2, ← Nat.shiftLeft_add_eq_or_of_lt h3] <;>
    simp only [Nat.shiftLeft_eq] <;> omega

/-- A word is determined by its fields. -/
theorem fieldsOf_inj {v w : Word} (h : fieldsOf v = fieldsOf w) : v = w := by
  rw [← wordOf_fieldsOf v, h, wordOf_fieldsOf]

namespace Machine

/-- Putting a shifted number above a small one adds it. -/
theorem or_shiftLeft_of_lt {a k : Nat} (h : a < 2 ^ k) (b : Nat) : a ||| b <<< k = a + b * 2 ^ k := by
  rw [Nat.or_comm, ← Nat.shiftLeft_add_eq_or_of_lt h, Nat.shiftLeft_eq, Nat.add_comm]

/-- R125 as arithmetic. -/
theorem pixel4_toNat (b : Byte) (p : Nat) :
    (pixel4 b p).toNat = if p % 2 = 0 then b.toNat % 16 else b.toNat / 16 := by
  have := b.isLt
  unfold pixel4
  split
  · simp [BitVec.extractLsb'_toNat]; omega
  · simp [BitVec.extractLsb'_toNat, Nat.shiftRight_eq_div_pow]; omega

/-- R134: a nibble is at most 15. -/
theorem pixel4_le (b : Byte) (p : Nat) : (pixel4 b p).toNat ≤ 15 := by
  have := b.isLt
  rw [pixel4_toNat]; split <;> omega

/-- R126 as arithmetic. -/
theorem pack4_toNat (P : Nat → Byte) (k : Nat) :
    (pack4 P k).toNat = (P (2 * k)).toNat % 16 + (P (2 * k + 1)).toNat % 16 * 16 := by
  have h1 := (P (2 * k)).isLt
  have h2 := (P (2 * k + 1)).isLt
  unfold pack4
  simp only [BitVec.toNat_or, BitVec.toNat_shiftLeft, BitVec.toNat_setWidth, BitVec.extractLsb'_toNat,
    Nat.shiftRight_eq_div_pow]
  have e : (((P (2 * k + 1)).toNat / 2 ^ 0 % 2 ^ 4 % 2 ^ 8) <<< 4) % 2 ^ 8 = ((P (2 * k + 1)).toNat % 16) <<< 4 := by
    rw [Nat.shiftLeft_eq, Nat.shiftLeft_eq]; omega
  have e' : (P (2 * k)).toNat / 2 ^ 0 % 2 ^ 4 % 2 ^ 8 = (P (2 * k)).toNat % 16 := by omega
  rw [e, e', or_shiftLeft_of_lt (by omega)]; omega

/-- R126: unpacking undoes packing, for pixels that fit. -/
theorem pixel4_pack4 (P : Nat → Byte) (p : Nat) (h : (P p).toNat ≤ 15) : pixel4 (pack4 P (p / 2)) p = P p := by
  apply BitVec.eq_of_toNat_eq
  rw [pixel4_toNat, pack4_toNat]
  split
  · have : 2 * (p / 2) = p := by omega
    rw [this]; omega
  · have : 2 * (p / 2) + 1 = p := by omega
    rw [this]; omega

/-- R125, R126: packing undoes unpacking. -/
theorem pack4_pixel4 (b : Byte) (k : Nat) {P : Nat → Byte} (h0 : P (2 * k) = pixel4 b (2 * k))
    (h1 : P (2 * k + 1) = pixel4 b (2 * k + 1)) : pack4 P k = b := by
  apply BitVec.eq_of_toNat_eq
  have := b.isLt
  have e0 : 2 * k % 2 = 0 := by omega
  have e1 : ¬ (2 * k + 1) % 2 = 0 := by omega
  rw [pack4_toNat, h0, h1, pixel4_toNat, pixel4_toNat, if_pos e0, if_neg e1]; omega

/-- R160 as arithmetic. -/
theorem le16_toNat (b0 b1 : Byte) : (le16 b0 b1).toNat = b0.toNat + 256 * b1.toNat := by
  have h0 := b0.isLt
  have h1 := b1.isLt
  simp only [le16, BitVec.toNat_or, BitVec.toNat_shiftLeft, BitVec.toNat_setWidth]
  have e : ((b1.toNat % 2 ^ 16) <<< 8) % 2 ^ 16 = b1.toNat <<< 8 := by
    rw [Nat.shiftLeft_eq, Nat.shiftLeft_eq]; omega
  have e' : b0.toNat % 2 ^ 16 = b0.toNat := by omega
  rw [e, e', or_shiftLeft_of_lt h0]; omega

/-- R161 as arithmetic. -/
theorem red5_toNat (w : BitVec 16) : (red5 w).toNat = w.toNat % 32 := by
  simp [red5, BitVec.extractLsb'_toNat]

/-- R161 as arithmetic. -/
theorem green5_toNat (w : BitVec 16) : (green5 w).toNat = w.toNat / 32 % 32 := by
  simp [green5, BitVec.extractLsb'_toNat, Nat.shiftRight_eq_div_pow]

/-- R161 as arithmetic. -/
theorem blue5_toNat (w : BitVec 16) : (blue5 w).toNat = w.toNat / 1024 % 32 := by
  simp [blue5, BitVec.extractLsb'_toNat, Nat.shiftRight_eq_div_pow]

/-- R162 as arithmetic. -/
theorem widen_toNat (c : BitVec 5) : (widen c).toNat = c.toNat * 8 := by
  have := c.isLt
  have e : (8 : Byte).toNat = 8 := rfl
  simp only [widen, BitVec.toNat_mul, BitVec.toNat_setWidth, e]; omega

/-- R163 as arithmetic. -/
theorem narrow_toNat (c : Byte) : (narrow c).toNat = c.toNat / 8 := by
  have := c.isLt
  have e : (8 : Byte).toNat = 8 := rfl
  simp only [narrow, BitVec.toNat_setWidth, BitVec.toNat_udiv, e]; omega

/-- R173: narrowing undoes widening. -/
theorem narrow_widen (c : BitVec 5) : narrow (widen c) = c := by
  apply BitVec.eq_of_toNat_eq
  rw [narrow_toNat, widen_toNat]; omega

/-- R172: widening after narrowing floors to a multiple of 8. -/
theorem widen_narrow_toNat (c : Byte) : (widen (narrow c)).toNat = c.toNat / 8 * 8 := by
  rw [widen_toNat, narrow_toNat]

/-- R164 as arithmetic: bit 15 is 0. -/
theorem pack15_toNat (r g b : BitVec 5) : (pack15 r g b).toNat = r.toNat + g.toNat * 32 + b.toNat * 1024 := by
  have hr := r.isLt
  have hg := g.isLt
  have hb := b.isLt
  simp only [pack15, BitVec.toNat_or, BitVec.toNat_shiftLeft, BitVec.toNat_setWidth]
  have e : ((g.toNat % 2 ^ 16) <<< 5) % 2 ^ 16 = g.toNat <<< 5 := by
    rw [Nat.shiftLeft_eq, Nat.shiftLeft_eq]; omega
  have e' : ((b.toNat % 2 ^ 16) <<< 10) % 2 ^ 16 = b.toNat <<< 10 := by
    rw [Nat.shiftLeft_eq, Nat.shiftLeft_eq]; omega
  have e'' : r.toNat % 2 ^ 16 = r.toNat := by omega
  rw [e, e', e'', or_shiftLeft_of_lt hr, or_shiftLeft_of_lt (by omega)]; omega

/-- R161, R164: unpacking undoes packing. -/
theorem red5_pack15 (r g b : BitVec 5) : red5 (pack15 r g b) = r := by
  have hr := r.isLt
  apply BitVec.eq_of_toNat_eq
  rw [red5_toNat, pack15_toNat]; omega

theorem green5_pack15 (r g b : BitVec 5) : green5 (pack15 r g b) = g := by
  have hr := r.isLt
  have hg := g.isLt
  apply BitVec.eq_of_toNat_eq
  rw [green5_toNat, pack15_toNat]; omega

theorem blue5_pack15 (r g b : BitVec 5) : blue5 (pack15 r g b) = b := by
  have hr := r.isLt
  have hg := g.isLt
  have hb := b.isLt
  apply BitVec.eq_of_toNat_eq
  rw [blue5_toNat, pack15_toNat]; omega

/-- R161, R164, R173: packing undoes unpacking, but for bit 15. -/
theorem pack15_unpack (w : BitVec 16) : (pack15 (red5 w) (green5 w) (blue5 w)).toNat = w.toNat % 32768 := by
  rw [pack15_toNat, red5_toNat, green5_toNat, blue5_toNat]; omega

theorem wordByte_zero_toNat (w : BitVec 16) : (wordByte w 0).toNat = w.toNat % 256 := by
  simp [wordByte, BitVec.extractLsb'_toNat]

theorem wordByte_one_toNat (w : BitVec 16) : (wordByte w 1).toNat = w.toNat / 256 := by
  have := w.isLt
  simp [wordByte, BitVec.extractLsb'_toNat, Nat.shiftRight_eq_div_pow]; omega

/-- Reading a little-endian word back from its two bytes (R53, R164). -/
theorem le16_wordBytes (w : BitVec 16) : le16 (wordByte w 0) (wordByte w 1) = w := by
  apply BitVec.eq_of_toNat_eq
  rw [le16_toNat, wordByte_zero_toNat, wordByte_one_toNat]; omega

end Machine

end Sys2Proof
end

