-- ==== Sys2Proof/Laws/Geometry.lean ====
section
/-! SUPPORT. Sys2Proof/Laws/Geometry.lean: the tile permutation is a bijection (41_tile_codec.md R122, R123), raster
offsets (R121) and the decode geometry (R129). -/

namespace Sys2Proof.Machine

/-! Raster offsets (R121). -/

theorem offset_mod {W x : Nat} (y : Nat) (h : x < W) : (y * W + x) % W = x := by
  rw [Nat.mul_comm, Nat.mul_add_mod, Nat.mod_eq_of_lt h]

theorem offset_div {W x : Nat} (y : Nat) (h : x < W) : (y * W + x) / W = y := by
  have : 0 < W := by omega
  rw [Nat.mul_comm, Nat.mul_add_div this, Nat.div_eq_of_lt h, Nat.add_zero]

theorem offset_lt {W H x y : Nat} (hx : x < W) (hy : y < H) : y * W + x < W * H := by
  have : (y + 1) * W ≤ H * W := Nat.mul_le_mul_right W hy
  rw [Nat.mul_comm W H]
  rw [Nat.add_mul, Nat.one_mul] at this
  omega

theorem offset_eq (W a : Nat) : a / W * W + a % W = a := by
  rw [Nat.mul_comm]; exact Nat.div_add_mod a W

theorem column_lt {W H a : Nat} (h : a < W * H) : a % W < W :=
  Nat.mod_lt _ (Nat.pos_of_ne_zero fun e => by simp [e] at h)

theorem row_lt {W H a : Nat} (h : a < W * H) : a / W < H := by
  rw [Nat.div_lt_iff_lt_mul (Nat.pos_of_ne_zero fun e => by simp [e] at h)]
  rwa [Nat.mul_comm] at h

/-! The tile permutation (R122, R123). -/

theorem tileAt_mod {T x : Nat} (y : Nat) (h : x < T * 8) : tileAt T x y % T = x / 8 :=
  offset_mod _ (by omega)

theorem tileAt_div {T x : Nat} (y : Nat) (h : x < T * 8) : tileAt T x y / T = y / 8 :=
  offset_div _ (by omega)

theorem pixelInTile_lt (x y : Nat) : pixelInTile x y < 64 := by
  unfold pixelInTile; omega

/-- Raster to tile and back. -/
theorem rasterX_tileAt {T x : Nat} (y : Nat) (h : x < T * 8) : rasterX T (tileAt T x y) (pixelInTile x y) = x := by
  rw [rasterX, tileAt_mod y h, pixelInTile]; omega

theorem rasterY_tileAt {T x : Nat} (y : Nat) (h : x < T * 8) : rasterY T (tileAt T x y) (pixelInTile x y) = y := by
  rw [rasterY, tileAt_div y h, pixelInTile]; omega

/-- Tile to raster and back. -/
theorem tileAt_raster (T t p : Nat) (hp : p < 64) : tileAt T (rasterX T t p) (rasterY T t p) = t := by
  have h1 : (t / T * 8 + p / 8) / 8 = t / T := by omega
  have h2 : (t % T * 8 + p % 8) / 8 = t % T := by omega
  rw [tileAt, rasterX, rasterY, h1, h2, offset_eq]

theorem pixelInTile_raster (T t p : Nat) (hp : p < 64) : pixelInTile (rasterX T t p) (rasterY T t p) = p := by
  rw [pixelInTile, rasterX, rasterY]; omega

theorem rasterX_lt {T : Nat} (hT : 0 < T) (t p : Nat) : rasterX T t p < T * 8 := by
  have := Nat.mod_lt t hT
  rw [rasterX]; omega

theorem rasterY_lt {T R t p : Nat} (ht : t < T * R) (hp : p < 64) : rasterY T t p < R * 8 := by
  have := row_lt ht
  rw [rasterY]; omega

/-- The raster offset of pixel `p` of tile `t` is inside a raster of `T` × `R` tiles. -/
theorem raster_offset_lt {T R t p : Nat} (ht : t < T * R) (hp : p < 64) :
    rasterY T t p * (T * 8) + rasterX T t p < T * 8 * (R * 8) :=
  offset_lt (rasterX_lt (Nat.pos_of_ne_zero fun e => by simp [e] at ht) t p) (rasterY_lt ht hp)

theorem tileAt_lt {T R x y : Nat} (hx : x < T * 8) (hy : y < R * 8) : tileAt T x y < T * R :=
  offset_lt (by omega) (by omega)

/-! Whole tiles (R121). -/

theorem rasterTiles_mul {W H : Nat} (hW : W % 8 = 0) (hH : H % 8 = 0) : rasterTiles W H * 64 = W * H := by
  obtain ⟨w, rfl⟩ := Nat.dvd_of_mod_eq_zero hW
  obtain ⟨h, rfl⟩ := Nat.dvd_of_mod_eq_zero hH
  rw [rasterTiles, Nat.mul_div_cancel_left _ (by omega), Nat.mul_div_cancel_left _ (by omega)]
  ring

theorem bytesPerTile_pos (d : Depth) : 0 < bytesPerTile d := by cases d <;> decide

theorem bytesPerTile_le (d : Depth) : bytesPerTile d ≤ 64 := by cases d <;> decide

/-! Decode geometry (R129). -/

theorem ceilDiv_mul (a : Nat) {T : Nat} (hT : 0 < T) :
    ceilDiv a T * T = if a % T = 0 then a else a + (T - a % T) := by
  have hm := Nat.mod_lt a hT
  have he := Nat.div_add_mod a T
  rw [ceilDiv]
  split
  · rename_i h
    have e : (a + T - 1) / T = a / T := by
      have : a + T - 1 = T * (a / T) + (T - 1) := by omega
      rw [this, Nat.mul_add_div hT, Nat.div_eq_of_lt (by omega : T - 1 < T), Nat.add_zero]
    rw [e, Nat.mul_comm]; omega
  · have e : (a + T - 1) / T = a / T + 1 := by
      have : a + T - 1 = T * (a / T + 1) + (a % T - 1) := by rw [Nat.mul_add]; omega
      rw [this, Nat.mul_add_div hT, Nat.div_eq_of_lt (by omega : a % T - 1 < T), Nat.add_zero]
    rw [e, Nat.add_mul, Nat.one_mul, Nat.mul_comm (a / T)]; omega

/-- The grid holds every tile. -/
theorem le_ceilDiv_mul (a : Nat) {T : Nat} (hT : 0 < T) : a ≤ ceilDiv a T * T := by
  rw [ceilDiv_mul a hT]; split <;> omega

theorem ceilDiv_le (a : Nat) {T : Nat} (hT : 0 < T) : ceilDiv a T ≤ a := by
  rw [ceilDiv, Nat.le_iff_lt_add_one, Nat.div_lt_iff_lt_mul hT, Nat.add_mul, Nat.one_mul]
  have : a ≤ a * T := Nat.le_mul_of_pos_right a hT
  omega

/-- R104: the decoded height fits a register whenever the buffer length does. -/
theorem decodeHeight_lt {d : Depth} {L T : Nat} (hT : 0 < T) (hL : L < 2 ^ 32) : decodeHeight d L T < 2 ^ 32 := by
  have := ceilDiv_le (tileCountOf d L) hT
  have : tileCountOf d L ≤ L / 32 := by
    cases d <;> simp only [tileCountOf, bytesPerTile] <;> omega
  rw [decodeHeight]; omega

end Sys2Proof.Machine
end

