-- ==== Sys2Proof/Laws/Memory.lean ====
section
/-! SUPPORT. Sys2Proof/Laws/Memory.lean: the laws of the byte memories: what a read gives after each operation, that every
operation keeps the canonical form, and that canonical memories with equal reads are equal. -/

namespace Sys2Proof.Machine

@[simp] theorem Memory.read_nil (a : Nat) : Memory.read [] a = none := rfl

theorem Memory.read_cons (c : Host.Cell) (m : Memory) (a : Nat) :
    Memory.read (c :: m) a = if a = c.1 then some c.2 else Memory.read m a := rfl

theorem Memory.read_write (m : Memory) (a : Nat) (v : Byte) (x : Nat) :
    (Memory.write m a v).read x = if x = a then some v else m.read x := by
  induction m with
  | nil => rfl
  | cons c m ih =>
    simp only [Memory.write]
    split
    · simp only [Memory.read_cons]
    · split
      · subst a; simp only [Memory.read_cons]; split <;> rfl
      · simp only [Memory.read_cons, ih]
        by_cases h : x = c.1
        · have : x ≠ a := by omega
          simp [h]; omega
        · simp [h]

@[simp] theorem Memory.read_write_same (m : Memory) (a : Nat) (v : Byte) : (Memory.write m a v).read a = some v := by
  simp [Memory.read_write]

theorem Memory.read_write_other (m : Memory) (v : Byte) {a x : Nat} (h : x ≠ a) :
    (Memory.write m a v).read x = m.read x := by
  simp [Memory.read_write, h]

theorem Memory.mem_write {m : Memory} {a : Nat} {v : Byte} {c : Host.Cell} (h : c ∈ Memory.write m a v) :
    c = (a, v) ∨ c ∈ m := by
  induction m with
  | nil => simpa [Memory.write] using h
  | cons d m ih =>
    simp only [Memory.write] at h
    split at h
    · simpa using h
    · split at h
      · simp at h ⊢; tauto
      · simp only [List.mem_cons] at h ⊢
        rcases h with h | h
        · exact .inr (.inl h)
        · rcases ih h with h | h
          · exact .inl h
          · exact .inr (.inr h)

theorem Memory.rising_write {m : Memory} (h : m.rising) (a : Nat) (v : Byte) : (Memory.write m a v).rising := by
  induction m with
  | nil => simp [Memory.write, Memory.rising]
  | cons c m ih =>
    obtain ⟨hc, hm⟩ := List.pairwise_cons.1 h
    simp only [Memory.write]
    split
    · refine List.pairwise_cons.2 ⟨fun d hd => ?_, h⟩
      rcases List.mem_cons.1 hd with rfl | hd
      · assumption
      · exact lt_trans ‹_› (hc d hd)
    · split
      · subst a; exact List.pairwise_cons.2 ⟨hc, hm⟩
      · refine List.pairwise_cons.2 ⟨fun d hd => ?_, ih hm⟩
        rcases Memory.mem_write hd with rfl | hd
        · show c.1 < a; omega
        · exact hc d hd

theorem Memory.wf_write {size : Nat} {m : Memory} (h : m.wf size) {a : Nat} (ha : a < size) (v : Byte) :
    (Memory.write m a v).wf size := by
  refine ⟨Memory.rising_write h.1 a v, fun c hc => ?_⟩
  rcases Memory.mem_write hc with rfl | hc
  · exact ha
  · exact h.2 c hc

theorem Memory.read_append (m m' : Memory) (a : Nat) :
    Memory.read (m ++ m') a = (m.read a).or (m'.read a) := by
  induction m with
  | nil => rfl
  | cons c m ih =>
    simp only [List.cons_append, Memory.read_cons, ih]
    split <;> simp

theorem Memory.read_map_range (len : Nat) (out : Nat → Byte) (a : Nat) :
    Memory.read ((List.range len).map fun i => (i, out i)) a = if a < len then some (out a) else none := by
  induction len with
  | zero => rfl
  | succ n ih =>
    rw [List.range_succ, List.map_append, Memory.read_append, ih]
    by_cases h : a < n
    · have : a < n + 1 := by omega
      simp [h, this]
    · by_cases h' : a = n
      · subst h'; simp [Memory.read_cons]
      · have : ¬ a < n + 1 := by omega
        simp [h, h', this, Memory.read_cons]

theorem Memory.read_filter_ge (m : Memory) (len a : Nat) :
    Memory.read (m.filter fun c => decide (len ≤ c.1)) a = if len ≤ a then m.read a else none := by
  induction m with
  | nil => simp
  | cons c m ih =>
    rw [List.filter_cons]
    by_cases hc : len ≤ c.1
    · simp only [hc, decide_true, if_true, Memory.read_cons, ih]
      by_cases ha : a = c.1
      · subst ha; simp [hc]
      · simp [ha]
    · simp only [hc, decide_false, Memory.read_cons]
      by_cases ha : a = c.1
      · subst ha; simp [hc, ih]
      · simp [ha, ih]

/-- What the commit of R102 leaves in OUT. -/
theorem Memory.read_writeFirst (m : Memory) (len : Nat) (out : Nat → Byte) (a : Nat) :
    (m.writeFirst len out).read a = if a < len then some (out a) else m.read a := by
  rw [Memory.writeFirst, Memory.read_append, Memory.read_map_range, Memory.read_filter_ge]
  by_cases h : a < len
  · simp [h]
  · have : len ≤ a := by omega
    simp [h, this]

theorem Memory.rising_writeFirst {m : Memory} (h : m.rising) (len : Nat) (out : Nat → Byte) :
    (m.writeFirst len out).rising := by
  refine List.pairwise_append.2 ⟨?_, h.filter _, fun c hc d hd => ?_⟩
  · exact List.pairwise_map.2 (List.pairwise_lt_range.imp fun h => h)
  · simp only [List.mem_map, List.mem_range] at hc
    obtain ⟨i, hi, rfl⟩ := hc
    have := of_decide_eq_true (List.mem_filter.1 hd).2
    show i < d.1; omega

theorem Memory.wf_writeFirst {size : Nat} {m : Memory} (h : m.wf size) {len : Nat} (hl : len ≤ size)
    (out : Nat → Byte) : (m.writeFirst len out).wf size := by
  refine ⟨Memory.rising_writeFirst h.1 len out, fun c hc => ?_⟩
  rcases List.mem_append.1 hc with hc | hc
  · simp only [List.mem_map, List.mem_range] at hc
    obtain ⟨i, hi, rfl⟩ := hc
    show i < size; omega
  · exact h.2 c (List.mem_filter.1 hc).1

theorem Memory.read_of_lt_all {m : Memory} {a : Nat} (h : ∀ c ∈ m, a < c.1) : m.read a = none := by
  induction m with
  | nil => rfl
  | cons c m ih =>
    have := h c (by simp)
    rw [Memory.read_cons, if_neg (by omega), ih fun d hd => h d (by simp [hd])]

/-- Canonical memories are determined by their reads, so equal memories are equal data. -/
theorem Memory.ext_read {m m' : Memory} (h : m.rising) (h' : m'.rising) (e : ∀ a, m.read a = m'.read a) : m = m' := by
  induction m generalizing m' with
  | nil =>
    cases m' with
    | nil => rfl
    | cons c m' => have := e c.1; simp [Memory.read_cons] at this
  | cons c m ih =>
    obtain ⟨hc, hm⟩ := List.pairwise_cons.1 h
    cases m' with
    | nil => have := e c.1; simp [Memory.read_cons] at this
    | cons d m' =>
      obtain ⟨hd, hm'⟩ := List.pairwise_cons.1 h'
      have first : c.1 = d.1 := by
        rcases lt_trichotomy c.1 d.1 with hlt | heq | hgt
        · have := e c.1
          rw [Memory.read_cons, if_pos rfl, Memory.read_of_lt_all] at this
          · simp at this
          · intro x hx
            rcases List.mem_cons.1 hx with rfl | hx
            · exact hlt
            · exact lt_trans hlt (hd x hx)
        · exact heq
        · have := e d.1
          rw [Memory.read_cons (c := d), if_pos rfl, Memory.read_of_lt_all] at this
          · simp at this
          · intro x hx
            rcases List.mem_cons.1 hx with rfl | hx
            · exact hgt
            · exact lt_trans hgt (hc x hx)
      have byte : c.2 = d.2 := by
        have := e c.1
        rw [Memory.read_cons, if_pos rfl, Memory.read_cons, if_pos first] at this
        simpa using this
      have rest : m = m' := by
        refine ih hm hm' fun a => ?_
        by_cases ha : a = c.1
        · rw [Memory.read_of_lt_all (m := m) fun x hx => ha ▸ hc x hx,
            Memory.read_of_lt_all (m := m') fun x hx => by rw [ha, first]; exact hd x hx]
        · have := e a
          rwa [Memory.read_cons, if_neg ha, Memory.read_cons, if_neg (by rw [← first]; exact ha)] at this
      rw [rest, Prod.ext first byte]

/-- `writeFirst` is the loop of R102: one `MemWrite` for each offset below `len`, in rising order. -/
theorem Memory.writeFirst_eq_loop {m : Memory} (h : m.rising) (len : Nat) (out : Nat → Byte) :
    m.writeFirst len out = (List.range len).foldl (fun m i => m.write i (out i)) m := by
  have loop : ∀ len, ((List.range len).foldl (fun m i => Memory.write m i (out i)) m).rising ∧
      ∀ a, ((List.range len).foldl (fun m i => Memory.write m i (out i)) m).read a
        = if a < len then some (out a) else m.read a := by
    intro len
    induction len with
    | zero => exact ⟨h, fun a => by simp⟩
    | succ n ih =>
      rw [List.range_succ, List.foldl_append]
      refine ⟨Memory.rising_write ih.1 _ _, fun a => ?_⟩
      simp only [List.foldl_cons, List.foldl_nil, Memory.read_write, ih.2]
      by_cases ha : a = n
      · subst ha; simp
      · by_cases hlt : a < n
        · have : a < n + 1 := by omega
          simp [ha, hlt, this]
        · have : ¬ a < n + 1 := by omega
          simp [ha, hlt, this]
  exact Memory.ext_read (Memory.rising_writeFirst h len out) (loop len).1
    fun a => by rw [Memory.read_writeFirst, (loop len).2]

/-! Host accesses of several bytes (20_memory.md R51). -/

theorem Memory.read_writeLE (m : Memory) (a width : Nat) (v : Word) (x : Nat) :
    (m.writeLE a width v).read x = if a ≤ x ∧ x < a + width then some (leByte v (x - a)) else m.read x := by
  unfold Memory.writeLE
  induction width with
  | zero => have : ¬ (a ≤ x ∧ x < a + 0) := by omega
            rw [if_neg this]; rfl
  | succ n ih =>
    rw [List.range_succ, List.foldl_append]
    simp only [List.foldl_cons, List.foldl_nil, Memory.read_write, ih]
    by_cases hx : x = a + n
    · subst hx; simp
    · by_cases h : a ≤ x ∧ x < a + n
      · have : x < a + (n + 1) := by omega
        simp [hx, h, this]
      · have : ¬ (a ≤ x ∧ x < a + (n + 1)) := by omega
        simp [hx, h, this]

theorem Memory.wf_writeLE {size : Nat} {m : Memory} (h : m.wf size) {a width : Nat} (ha : a + width ≤ size)
    (v : Word) : (m.writeLE a width v).wf size := by
  unfold Memory.writeLE
  induction width with
  | zero => exact h
  | succ n ih =>
    rw [List.range_succ, List.foldl_append]
    exact Memory.wf_write (ih (by omega)) (by omega) _

theorem Memory.readByte_written {m : Memory} {a : Nat} {b : Byte} (h : m.read a = some b) (n : Nat) :
    m.readByte n a = b := by
  simp [Memory.readByte, h]

theorem Memory.readByte_unwritten {m : Memory} {a : Nat} (h : m.read a = none) (n : Nat) :
    m.readByte n a = Config.freeByte n a := by
  simp [Memory.readByte, h]

/-- Byte `k` of a little-endian number. -/
theorem leValue_byte (bs : List Byte) (k : Nat) (hk : k < bs.length) :
    leValue bs / 2 ^ (8 * k) % 2 ^ 8 = (bs[k]).toNat := by
  induction bs generalizing k with
  | nil => simp at hk
  | cons b bs ih =>
    have hb := b.isLt
    cases k with
    | zero => simp [leValue]; omega
    | succ k =>
      have hk' : k < bs.length := by simpa using hk
      have e : 2 ^ (8 * (k + 1)) = 2 ^ 8 * 2 ^ (8 * k) := by rw [← pow_add]; ring_nf
      rw [leValue, e, ← Nat.div_div_eq_div_mul]
      have : (b.toNat + 2 ^ 8 * leValue bs) / 2 ^ 8 = leValue bs := by omega
      rw [this, ih k hk']
      rfl

theorem leValue_lt (bs : List Byte) : leValue bs < 2 ^ (8 * bs.length) := by
  induction bs with
  | nil => simp [leValue]
  | cons b bs ih =>
    have hb := b.isLt
    have e : 2 ^ (8 * (bs.length + 1)) = 2 ^ 8 * 2 ^ (8 * bs.length) := by rw [← pow_add]; ring_nf
    simp only [leValue, List.length_cons, e]
    omega

/-- Byte `k` of what a host read of at most four bytes returns. -/
theorem Memory.readLE_byte (m : Memory) (n a : Nat) {width k : Nat} (hw : width ≤ 4) (hk : k < width) :
    leByte (m.readLE n a width) k = m.readByte n (a + k) := by
  apply BitVec.eq_of_toNat_eq
  have hl := leValue_lt ((List.range width).map fun k => m.readByte n (a + k))
  have hb := leValue_byte ((List.range width).map fun k => m.readByte n (a + k)) k (by simpa using hk)
  simp only [List.length_map, List.length_range] at hl
  have h32 : 2 ^ (8 * width) ≤ 2 ^ 32 := Nat.pow_le_pow_right (by omega) (by omega)
  simp only [leByte, Memory.readLE, BitVec.extractLsb'_toNat, BitVec.toNat_ofNat, Nat.shiftRight_eq_div_pow]
  rw [Nat.mod_eq_of_lt (a := leValue _) (lt_of_lt_of_le hl h32), hb]
  simp

theorem Memory.readLE_lt (m : Memory) (n a width : Nat) : (m.readLE n a width).toNat < 2 ^ (8 * width) := by
  have hl := leValue_lt ((List.range width).map fun k => m.readByte n (a + k))
  simp only [List.length_map, List.length_range] at hl
  exact lt_of_le_of_lt (Nat.mod_le _ _) hl

end Sys2Proof.Machine
end

