-- ==== Sys2Proof/Laws/State.lean ====
section
/-! SUPPORT. Sys2Proof/Laws/State.lean: one lemma per field per update of the state, so that no proof unfolds a record
update. -/

namespace Sys2Proof.Machine

/-! Writing STATUS (R24). -/

@[simp] theorem State.setStatus_cfg (s : State) (c : StatusCode) :
    (s.setStatus c).cfg = s.cfg := rfl

@[simp] theorem State.setStatus_inLen (s : State) (c : StatusCode) :
    (s.setStatus c).inLen = s.inLen := rfl

@[simp] theorem State.setStatus_argA (s : State) (c : StatusCode) :
    (s.setStatus c).argA = s.argA := rfl

@[simp] theorem State.setStatus_argB (s : State) (c : StatusCode) :
    (s.setStatus c).argB = s.argB := rfl

@[simp] theorem State.setStatus_code (s : State) (c : StatusCode) :
    (s.setStatus c).code = c := rfl

@[simp] theorem State.setStatus_done (s : State) (c : StatusCode) :
    (s.setStatus c).done = true := rfl

@[simp] theorem State.setStatus_resLen (s : State) (c : StatusCode) :
    (s.setStatus c).resLen = s.resLen := rfl

@[simp] theorem State.setStatus_resW (s : State) (c : StatusCode) :
    (s.setStatus c).resW = s.resW := rfl

@[simp] theorem State.setStatus_resH (s : State) (c : StatusCode) :
    (s.setStatus c).resH = s.resH := rfl

@[simp] theorem State.setStatus_resCount (s : State) (c : StatusCode) :
    (s.setStatus c).resCount = s.resCount := rfl

@[simp] theorem State.setStatus_inMem (s : State) (c : StatusCode) :
    (s.setStatus c).inMem = s.inMem := rfl

@[simp] theorem State.setStatus_outMem (s : State) (c : StatusCode) :
    (s.setStatus c).outMem = s.outMem := rfl

@[simp] theorem State.setStatus_draws (s : State) (c : StatusCode) :
    (s.setStatus c).draws = s.draws := rfl

@[simp] theorem State.setStatus_pending (s : State) (c : StatusCode) :
    (s.setStatus c).pending = s.pending := rfl

@[simp] theorem State.setStatus_readData (s : State) (c : StatusCode) :
    (s.setStatus c).readData = s.readData := rfl

/-! Reporting an error (R103). -/

@[simp] theorem State.commitFail_cfg (s : State) (c : StatusCode) :
    (s.commitFail c).cfg = s.cfg := rfl

@[simp] theorem State.commitFail_inLen (s : State) (c : StatusCode) :
    (s.commitFail c).inLen = s.inLen := rfl

@[simp] theorem State.commitFail_argA (s : State) (c : StatusCode) :
    (s.commitFail c).argA = s.argA := rfl

@[simp] theorem State.commitFail_argB (s : State) (c : StatusCode) :
    (s.commitFail c).argB = s.argB := rfl

@[simp] theorem State.commitFail_code (s : State) (c : StatusCode) :
    (s.commitFail c).code = c := rfl

@[simp] theorem State.commitFail_done (s : State) (c : StatusCode) :
    (s.commitFail c).done = true := rfl

@[simp] theorem State.commitFail_resLen (s : State) (c : StatusCode) :
    (s.commitFail c).resLen = s.resLen := rfl

@[simp] theorem State.commitFail_resW (s : State) (c : StatusCode) :
    (s.commitFail c).resW = s.resW := rfl

@[simp] theorem State.commitFail_resH (s : State) (c : StatusCode) :
    (s.commitFail c).resH = s.resH := rfl

@[simp] theorem State.commitFail_resCount (s : State) (c : StatusCode) :
    (s.commitFail c).resCount = s.resCount := rfl

@[simp] theorem State.commitFail_inMem (s : State) (c : StatusCode) :
    (s.commitFail c).inMem = s.inMem := rfl

@[simp] theorem State.commitFail_outMem (s : State) (c : StatusCode) :
    (s.commitFail c).outMem = s.outMem := rfl

@[simp] theorem State.commitFail_draws (s : State) (c : StatusCode) :
    (s.commitFail c).draws = s.draws := rfl

@[simp] theorem State.commitFail_pending (s : State) (c : StatusCode) :
    (s.commitFail c).pending = s.pending := rfl

@[simp] theorem State.commitFail_readData (s : State) (c : StatusCode) :
    (s.commitFail c).readData = s.readData := rfl

/-! Committing a result (R102). -/

@[simp] theorem State.commitOk_cfg (s : State) (out : Nat → Byte) (len w h n : Nat) :
    (s.commitOk out len w h n).cfg = s.cfg := rfl

@[simp] theorem State.commitOk_inLen (s : State) (out : Nat → Byte) (len w h n : Nat) :
    (s.commitOk out len w h n).inLen = s.inLen := rfl

@[simp] theorem State.commitOk_argA (s : State) (out : Nat → Byte) (len w h n : Nat) :
    (s.commitOk out len w h n).argA = s.argA := rfl

@[simp] theorem State.commitOk_argB (s : State) (out : Nat → Byte) (len w h n : Nat) :
    (s.commitOk out len w h n).argB = s.argB := rfl

@[simp] theorem State.commitOk_code (s : State) (out : Nat → Byte) (len w h n : Nat) :
    (s.commitOk out len w h n).code = .ok := rfl

@[simp] theorem State.commitOk_done (s : State) (out : Nat → Byte) (len w h n : Nat) :
    (s.commitOk out len w h n).done = true := rfl

@[simp] theorem State.commitOk_resLen (s : State) (out : Nat → Byte) (len w h n : Nat) :
    (s.commitOk out len w h n).resLen = zext32 len := rfl

@[simp] theorem State.commitOk_resW (s : State) (out : Nat → Byte) (len w h n : Nat) :
    (s.commitOk out len w h n).resW = zext32 w := rfl

@[simp] theorem State.commitOk_resH (s : State) (out : Nat → Byte) (len w h n : Nat) :
    (s.commitOk out len w h n).resH = zext32 h := rfl

@[simp] theorem State.commitOk_resCount (s : State) (out : Nat → Byte) (len w h n : Nat) :
    (s.commitOk out len w h n).resCount = zext32 n := rfl

@[simp] theorem State.commitOk_inMem (s : State) (out : Nat → Byte) (len w h n : Nat) :
    (s.commitOk out len w h n).inMem = s.inMem := rfl

@[simp] theorem State.commitOk_outMem (s : State) (out : Nat → Byte) (len w h n : Nat) :
    (s.commitOk out len w h n).outMem = s.outMem.writeFirst len out := rfl

@[simp] theorem State.commitOk_draws (s : State) (out : Nat → Byte) (len w h n : Nat) :
    (s.commitOk out len w h n).draws = s.draws := rfl

@[simp] theorem State.commitOk_pending (s : State) (out : Nat → Byte) (len w h n : Nat) :
    (s.commitOk out len w h n).pending = s.pending := rfl

@[simp] theorem State.commitOk_readData (s : State) (out : Nat → Byte) (len w h n : Nat) :
    (s.commitOk out len w h n).readData = s.readData := rfl

/-! The next draw (R38). -/

@[simp] theorem State.nextDraw_cfg (s : State) :
    (s.nextDraw).cfg = s.cfg := rfl

@[simp] theorem State.nextDraw_inLen (s : State) :
    (s.nextDraw).inLen = s.inLen := rfl

@[simp] theorem State.nextDraw_argA (s : State) :
    (s.nextDraw).argA = s.argA := rfl

@[simp] theorem State.nextDraw_argB (s : State) :
    (s.nextDraw).argB = s.argB := rfl

@[simp] theorem State.nextDraw_code (s : State) :
    (s.nextDraw).code = s.code := rfl

@[simp] theorem State.nextDraw_done (s : State) :
    (s.nextDraw).done = s.done := rfl

@[simp] theorem State.nextDraw_resLen (s : State) :
    (s.nextDraw).resLen = s.resLen := rfl

@[simp] theorem State.nextDraw_resW (s : State) :
    (s.nextDraw).resW = s.resW := rfl

@[simp] theorem State.nextDraw_resH (s : State) :
    (s.nextDraw).resH = s.resH := rfl

@[simp] theorem State.nextDraw_resCount (s : State) :
    (s.nextDraw).resCount = s.resCount := rfl

@[simp] theorem State.nextDraw_inMem (s : State) :
    (s.nextDraw).inMem = s.inMem := rfl

@[simp] theorem State.nextDraw_outMem (s : State) :
    (s.nextDraw).outMem = s.outMem := rfl

@[simp] theorem State.nextDraw_draws (s : State) :
    (s.nextDraw).draws = s.draws + 1 := rfl

@[simp] theorem State.nextDraw_pending (s : State) :
    (s.nextDraw).pending = s.pending := rfl

@[simp] theorem State.nextDraw_readData (s : State) :
    (s.nextDraw).readData = s.readData := rfl

/-! The value of a host read. -/

@[simp] theorem State.setReadData_cfg (s : State) (v : Word) :
    (s.setReadData v).cfg = s.cfg := rfl

@[simp] theorem State.setReadData_inLen (s : State) (v : Word) :
    (s.setReadData v).inLen = s.inLen := rfl

@[simp] theorem State.setReadData_argA (s : State) (v : Word) :
    (s.setReadData v).argA = s.argA := rfl

@[simp] theorem State.setReadData_argB (s : State) (v : Word) :
    (s.setReadData v).argB = s.argB := rfl

@[simp] theorem State.setReadData_code (s : State) (v : Word) :
    (s.setReadData v).code = s.code := rfl

@[simp] theorem State.setReadData_done (s : State) (v : Word) :
    (s.setReadData v).done = s.done := rfl

@[simp] theorem State.setReadData_resLen (s : State) (v : Word) :
    (s.setReadData v).resLen = s.resLen := rfl

@[simp] theorem State.setReadData_resW (s : State) (v : Word) :
    (s.setReadData v).resW = s.resW := rfl

@[simp] theorem State.setReadData_resH (s : State) (v : Word) :
    (s.setReadData v).resH = s.resH := rfl

@[simp] theorem State.setReadData_resCount (s : State) (v : Word) :
    (s.setReadData v).resCount = s.resCount := rfl

@[simp] theorem State.setReadData_inMem (s : State) (v : Word) :
    (s.setReadData v).inMem = s.inMem := rfl

@[simp] theorem State.setReadData_outMem (s : State) (v : Word) :
    (s.setReadData v).outMem = s.outMem := rfl

@[simp] theorem State.setReadData_draws (s : State) (v : Word) :
    (s.setReadData v).draws = s.draws := rfl

@[simp] theorem State.setReadData_pending (s : State) (v : Word) :
    (s.setReadData v).pending = s.pending := rfl

@[simp] theorem State.setReadData_readData (s : State) (v : Word) :
    (s.setReadData v).readData = v := rfl

/-! Replacing a memory. -/

@[simp] theorem State.setMem_cfg (s : State) (space : Space) (m : Memory) :
    (s.setMem space m).cfg = s.cfg := by
  cases space <;> rfl

@[simp] theorem State.setMem_inLen (s : State) (space : Space) (m : Memory) :
    (s.setMem space m).inLen = s.inLen := by
  cases space <;> rfl

@[simp] theorem State.setMem_argA (s : State) (space : Space) (m : Memory) :
    (s.setMem space m).argA = s.argA := by
  cases space <;> rfl

@[simp] theorem State.setMem_argB (s : State) (space : Space) (m : Memory) :
    (s.setMem space m).argB = s.argB := by
  cases space <;> rfl

@[simp] theorem State.setMem_code (s : State) (space : Space) (m : Memory) :
    (s.setMem space m).code = s.code := by
  cases space <;> rfl

@[simp] theorem State.setMem_done (s : State) (space : Space) (m : Memory) :
    (s.setMem space m).done = s.done := by
  cases space <;> rfl

@[simp] theorem State.setMem_resLen (s : State) (space : Space) (m : Memory) :
    (s.setMem space m).resLen = s.resLen := by
  cases space <;> rfl

@[simp] theorem State.setMem_resW (s : State) (space : Space) (m : Memory) :
    (s.setMem space m).resW = s.resW := by
  cases space <;> rfl

@[simp] theorem State.setMem_resH (s : State) (space : Space) (m : Memory) :
    (s.setMem space m).resH = s.resH := by
  cases space <;> rfl

@[simp] theorem State.setMem_resCount (s : State) (space : Space) (m : Memory) :
    (s.setMem space m).resCount = s.resCount := by
  cases space <;> rfl

@[simp] theorem State.setMem_inMem (s : State) (space : Space) (m : Memory) :
    (s.setMem space m).inMem = (match space with
      | .inMem => m
      | .outMem => s.inMem) := by
  cases space <;> rfl

@[simp] theorem State.setMem_outMem (s : State) (space : Space) (m : Memory) :
    (s.setMem space m).outMem = (match space with
      | .inMem => s.outMem
      | .outMem => m) := by
  cases space <;> rfl

@[simp] theorem State.setMem_draws (s : State) (space : Space) (m : Memory) :
    (s.setMem space m).draws = s.draws := by
  cases space <;> rfl

@[simp] theorem State.setMem_pending (s : State) (space : Space) (m : Memory) :
    (s.setMem space m).pending = s.pending := by
  cases space <;> rfl

@[simp] theorem State.setMem_readData (s : State) (space : Space) (m : Memory) :
    (s.setMem space m).readData = s.readData := by
  cases space <;> rfl

@[simp] theorem State.mem_setMem_same (s : State) (space : Space) (m : Memory) : (s.setMem space m).mem space = m := by
  cases space <;> rfl

/-! Writing a register (R22). -/

@[simp] theorem State.writeReg_cfg (s : State) (r : RegName) (v : Word) :
    (s.writeReg r v).cfg = s.cfg := by
  cases r <;> rfl

@[simp] theorem State.writeReg_inLen (s : State) (r : RegName) (v : Word) :
    (s.writeReg r v).inLen = if r = .inLen then v else s.inLen := by
  cases r <;> rfl

@[simp] theorem State.writeReg_argA (s : State) (r : RegName) (v : Word) :
    (s.writeReg r v).argA = if r = .argA then v else s.argA := by
  cases r <;> rfl

@[simp] theorem State.writeReg_argB (s : State) (r : RegName) (v : Word) :
    (s.writeReg r v).argB = if r = .argB then v else s.argB := by
  cases r <;> rfl

@[simp] theorem State.writeReg_code (s : State) (r : RegName) (v : Word) :
    (s.writeReg r v).code = s.code := by
  cases r <;> rfl

@[simp] theorem State.writeReg_done (s : State) (r : RegName) (v : Word) :
    (s.writeReg r v).done = s.done := by
  cases r <;> rfl

@[simp] theorem State.writeReg_resLen (s : State) (r : RegName) (v : Word) :
    (s.writeReg r v).resLen = s.resLen := by
  cases r <;> rfl

@[simp] theorem State.writeReg_resW (s : State) (r : RegName) (v : Word) :
    (s.writeReg r v).resW = s.resW := by
  cases r <;> rfl

@[simp] theorem State.writeReg_resH (s : State) (r : RegName) (v : Word) :
    (s.writeReg r v).resH = s.resH := by
  cases r <;> rfl

@[simp] theorem State.writeReg_resCount (s : State) (r : RegName) (v : Word) :
    (s.writeReg r v).resCount = s.resCount := by
  cases r <;> rfl

@[simp] theorem State.writeReg_inMem (s : State) (r : RegName) (v : Word) :
    (s.writeReg r v).inMem = s.inMem := by
  cases r <;> rfl

@[simp] theorem State.writeReg_outMem (s : State) (r : RegName) (v : Word) :
    (s.writeReg r v).outMem = s.outMem := by
  cases r <;> rfl

@[simp] theorem State.writeReg_draws (s : State) (r : RegName) (v : Word) :
    (s.writeReg r v).draws = s.draws := by
  cases r <;> rfl

@[simp] theorem State.writeReg_pending (s : State) (r : RegName) (v : Word) :
    (s.writeReg r v).pending = s.pending := by
  cases r <;> rfl

@[simp] theorem State.writeReg_readData (s : State) (r : RegName) (v : Word) :
    (s.writeReg r v).readData = s.readData := by
  cases r <;> rfl

/-! The reset event (R230). -/

@[simp] theorem State.resetBlock_cfg (s : State) :
    (s.resetBlock).cfg = s.cfg := rfl

@[simp] theorem State.resetBlock_inLen (s : State) :
    (s.resetBlock).inLen = 0 := rfl

@[simp] theorem State.resetBlock_argA (s : State) :
    (s.resetBlock).argA = 0 := rfl

@[simp] theorem State.resetBlock_argB (s : State) :
    (s.resetBlock).argB = 0 := rfl

@[simp] theorem State.resetBlock_code (s : State) :
    (s.resetBlock).code = .ok := rfl

@[simp] theorem State.resetBlock_done (s : State) :
    (s.resetBlock).done = false := rfl

@[simp] theorem State.resetBlock_resLen (s : State) :
    (s.resetBlock).resLen = 0 := rfl

@[simp] theorem State.resetBlock_resW (s : State) :
    (s.resetBlock).resW = 0 := rfl

@[simp] theorem State.resetBlock_resH (s : State) :
    (s.resetBlock).resH = 0 := rfl

@[simp] theorem State.resetBlock_resCount (s : State) :
    (s.resetBlock).resCount = 0 := rfl

@[simp] theorem State.resetBlock_inMem (s : State) :
    (s.resetBlock).inMem = [] := rfl

@[simp] theorem State.resetBlock_outMem (s : State) :
    (s.resetBlock).outMem = [] := rfl

@[simp] theorem State.resetBlock_draws (s : State) :
    (s.resetBlock).draws = s.draws := rfl

@[simp] theorem State.resetBlock_pending (s : State) :
    (s.resetBlock).pending = s.pending := rfl

@[simp] theorem State.resetBlock_readData (s : State) :
    (s.resetBlock).readData = s.readData := rfl

/-! What a command commits (R100). -/

@[simp] theorem State.commit_fail (s : State) (c : StatusCode) : s.commit (.fail c) = s.commitFail c := rfl

@[simp] theorem State.commit_ok (s : State) (out : Nat → Byte) (len w h n : Nat) :
    s.commit (.ok out len w h n) = s.commitOk out len w h n := rfl

@[simp] theorem State.commit_cfg (s : State) (r : CmdResult) : (s.commit r).cfg = s.cfg := by
  cases r <;> rfl

@[simp] theorem State.commit_inLen (s : State) (r : CmdResult) : (s.commit r).inLen = s.inLen := by
  cases r <;> rfl

@[simp] theorem State.commit_argA (s : State) (r : CmdResult) : (s.commit r).argA = s.argA := by
  cases r <;> rfl

@[simp] theorem State.commit_argB (s : State) (r : CmdResult) : (s.commit r).argB = s.argB := by
  cases r <;> rfl

@[simp] theorem State.commit_inMem (s : State) (r : CmdResult) : (s.commit r).inMem = s.inMem := by
  cases r <;> rfl

@[simp] theorem State.commit_draws (s : State) (r : CmdResult) : (s.commit r).draws = s.draws := by
  cases r <;> rfl

@[simp] theorem State.commit_pending (s : State) (r : CmdResult) : (s.commit r).pending = s.pending := by
  cases r <;> rfl

@[simp] theorem State.commit_readData (s : State) (r : CmdResult) : (s.commit r).readData = s.readData := by
  cases r <;> rfl

end Sys2Proof.Machine
end

