-- ==== Sys2Proof/Laws/Commands.lean ====
section
/-! SUPPORT. Sys2Proof/Laws/Commands.lean: everything a command can do, said once: the frame of 40_command.md R100–R106,
the check phases (60_exceptions.md R209), and what each compute phase answers (41_tile_codec.md R130, R131;
42_color_codec.md R170, R171). -/

namespace Sys2Proof.Machine

theorem zext32_toNat {n : Nat} (h : n < 2 ^ 32) : (zext32 n).toNat = n := by
  simp [zext32]; omega

theorem zext32_toNat_le (n : Nat) : (zext32 n).toNat ≤ n := by
  simp only [zext32, BitVec.toNat_ofNat]; exact Nat.mod_le _ _

@[simp] theorem zext32_word (w : Word) : zext32 w.toNat = w := by simp [zext32]

@[simp] theorem State.snapshot_inLen (s : State) : s.snapshot.inLen = s.inLen.toNat := rfl
@[simp] theorem State.snapshot_argA (s : State) : s.snapshot.argA = s.argA.toNat := rfl
@[simp] theorem State.snapshot_argB (s : State) : s.snapshot.argB = s.argB.toNat := rfl
@[simp] theorem State.snapshot_inSize (s : State) : s.snapshot.inSize = s.cfg.inSize := rfl
@[simp] theorem State.snapshot_outSize (s : State) : s.snapshot.outSize = s.cfg.outSize := rfl

theorem State.inb_written {s : State} {a : Nat} {b : Byte} (h : s.inMem.read a = some b) : s.inb a = b :=
  Memory.readByte_written h _

/-! The frame (R100–R103). -/

section
variable {check : Snapshot → Option StatusCode} {compute : Snapshot → (Nat → Byte) → CmdResult} {s : State}

theorem runCommand_check_fails {c : StatusCode} (h : check s.snapshot = some c) :
    runCommand check compute s = .next (s.commitFail c) := by
  simp [runCommand, h]

theorem runCommand_compute_fails {c : StatusCode} (h : check s.snapshot = none)
    (hr : compute s.snapshot s.inb = .fail c) : runCommand check compute s = .next (s.commitFail c).nextDraw := by
  simp [runCommand, h, hr]

theorem runCommand_succeeds {out : Nat → Byte} {len w hgt n : Nat} (h : check s.snapshot = none)
    (hr : compute s.snapshot s.inb = .ok out len w hgt n) :
    runCommand check compute s = .next (s.commitOk out len w hgt n).nextDraw := by
  simp [runCommand, h, hr]

/-- A command's three ends: the check phase fails, the compute phase fails, or it commits its output. -/
theorem runCommand_cases (check : Snapshot → Option StatusCode) (compute : Snapshot → (Nat → Byte) → CmdResult)
    (s : State) :
    (∃ c, check s.snapshot = some c ∧ runCommand check compute s = .next (s.commitFail c)) ∨
    (∃ c, check s.snapshot = none ∧ compute s.snapshot s.inb = .fail c ∧
      runCommand check compute s = .next (s.commitFail c).nextDraw) ∨
    (∃ out len w hgt n, check s.snapshot = none ∧ compute s.snapshot s.inb = .ok out len w hgt n ∧
      runCommand check compute s = .next (s.commitOk out len w hgt n).nextDraw) := by
  cases hc : check s.snapshot with
  | some c => exact .inl ⟨c, rfl, runCommand_check_fails hc⟩
  | none =>
    cases hr : compute s.snapshot s.inb with
    | fail c => exact .inr (.inl ⟨c, rfl, rfl, runCommand_compute_fails hc hr⟩)
    | ok out len w hgt n => exact .inr (.inr ⟨out, len, w, hgt, n, rfl, rfl, runCommand_succeeds hc hr⟩)
end

/-- The check phase of each command. -/
def checkOf : Instr → Snapshot → Option StatusCode
  | .tdec4 => tileDecodeCheck .bpp4
  | .tdec8 => tileDecodeCheck .bpp8
  | .tenc4 => tileEncodeCheck .bpp4
  | .tenc8 => tileEncodeCheck .bpp8
  | .cdec => colorDecodeCheck
  | .cenc => colorEncodeCheck

/-- The compute phase of each command. -/
def computeOf : Instr → Snapshot → (Nat → Byte) → CmdResult
  | .tdec4 => tileDecodeCompute .bpp4
  | .tdec8 => tileDecodeCompute .bpp8
  | .tenc4 => tileEncodeCompute .bpp4
  | .tenc8 => tileEncodeCompute .bpp8
  | .cdec => colorDecodeCompute
  | .cenc => colorEncodeCompute

/-- Every command is its check phase and its compute phase in the common frame. -/
theorem exec_eq_runCommand (i : Instr) (s : State) : exec i s = runCommand (checkOf i) (computeOf i) s := by
  cases i <;> rfl

/-- A command never stops (R106). -/
theorem exec_next (i : Instr) (s : State) : ∃ t, exec i s = .next t := by
  rw [exec_eq_runCommand]
  rcases runCommand_cases (checkOf i) (computeOf i) s with ⟨c, _, h⟩ | ⟨c, _, _, h⟩ | ⟨o, l, w, g, n, _, _, h⟩ <;>
    exact ⟨_, h⟩

/-- What no command changes (R102, R103). -/
theorem exec_frame {i : Instr} {s t : State} (h : exec i s = .next t) :
    t.cfg = s.cfg ∧ t.inLen = s.inLen ∧ t.argA = s.argA ∧ t.argB = s.argB ∧ t.inMem = s.inMem ∧
      t.pending = s.pending ∧ t.readData = s.readData ∧ t.done = true := by
  rw [exec_eq_runCommand] at h
  rcases runCommand_cases (checkOf i) (computeOf i) s with ⟨c, _, e⟩ | ⟨c, _, _, e⟩ | ⟨o, l, w, g, n, _, _, e⟩ <;>
    · rw [e] at h; cases h; simp

/-! The check phases. -/

theorem tileDecodeCheck_none {d : Depth} {s : Snapshot} :
    tileDecodeCheck d s = none ↔ s.argA ≠ 0 ∧ s.inLen % bytesPerTile d = 0 ∧ s.inLen ≤ s.inSize ∧
      s.argA * 8 ≤ 2 ^ 32 - 1 ∧ s.argA * 8 * decodeHeight d s.inLen s.argA ≤ s.outSize := by
  unfold tileDecodeCheck
  split_ifs with h1 h2 h3
  · simp [h1]
  · simp [h2]
  · simp only [false_iff]; omega
  · simp only [true_iff]; omega

theorem tileEncodeCheck_none {d : Depth} {s : Snapshot} :
    tileEncodeCheck d s = none ↔ s.argA % 8 = 0 ∧ s.argB % 8 = 0 ∧ s.argA * s.argB ≤ s.inSize ∧
      rasterTiles s.argA s.argB * bytesPerTile d ≤ s.outSize := by
  unfold tileEncodeCheck
  split_ifs with h1 h2
  · simp only [false_iff]; omega
  · simp only [false_iff]; omega
  · simp only [true_iff]; omega

theorem colorDecodeCheck_none {s : Snapshot} :
    colorDecodeCheck s = none ↔ (s.inLen = 32 ∨ s.inLen = 512) ∧ s.inLen ≤ s.inSize ∧
      3 * (s.inLen / 2) ≤ s.outSize := by
  unfold colorDecodeCheck
  split_ifs with h1 h2
  · simp only [false_iff]; omega
  · simp only [false_iff]; omega
  · simp only [true_iff]; omega

theorem colorEncodeCheck_none {s : Snapshot} :
    colorEncodeCheck s = none ↔ (s.argA = 16 ∨ s.argA = 256) ∧ 3 * s.argA ≤ s.inSize ∧ 2 * s.argA ≤ s.outSize := by
  unfold colorEncodeCheck
  split_ifs with h1 h2
  · simp only [false_iff]; omega
  · simp only [false_iff]; omega
  · simp only [true_iff]; omega

/-- A check phase that fails reports an error, never Ok (R101). -/
theorem checkOf_ne_ok (i : Instr) (s : Snapshot) : checkOf i s ≠ some .ok := by
  cases i <;> simp only [checkOf, tileDecodeCheck, tileEncodeCheck, colorDecodeCheck, colorEncodeCheck] <;>
    split_ifs <;> simp

/-- Only TILE_ENCODE at 4 bpp fails in its compute phase, and only with PixelIndexOutOfRange (R101, R128). -/
theorem computeOf_fail {i : Instr} {s : Snapshot} {inb : Nat → Byte} {c : StatusCode}
    (h : computeOf i s inb = .fail c) : i = .tenc4 ∧ c = .pixelIndexOutOfRange := by
  cases i <;>
    simp only [computeOf, tileDecodeCompute, tileEncodeCompute, colorDecodeCompute, colorEncodeCompute] at h
  case tenc4 => split at h <;> cases h; exact ⟨rfl, rfl⟩
  all_goals cases h

/-- Everything a command can do: report an error and leave the rest (R103), or commit its output (R102). `draws` is the
model's own count of drawing reads. -/
theorem exec_cases {i : Instr} {s t : State} (h : exec i s = .next t) :
    (∃ c n, c ≠ .ok ∧ t = { s with code := c, done := true, draws := n }) ∨
    (∃ out len w hgt n, checkOf i s.snapshot = none ∧ computeOf i s.snapshot s.inb = .ok out len w hgt n ∧
      t = (s.commitOk out len w hgt n).nextDraw) := by
  rw [exec_eq_runCommand] at h
  rcases runCommand_cases (checkOf i) (computeOf i) s with ⟨c, hc, e⟩ | ⟨c, _, hr, e⟩ | ⟨o, l, w, g, n, hc, hr, e⟩ <;>
    rw [e] at h <;> cases h
  · exact .inl ⟨c, s.draws, fun hk => checkOf_ne_ok i _ (hk ▸ hc), rfl⟩
  · exact .inl ⟨c, s.draws + 1, by rw [(computeOf_fail hr).2]; simp, rfl⟩
  · exact .inr ⟨o, l, w, g, n, hc, hr, rfl⟩

theorem pixelOutOfRange_eq_true {d : Depth} {W H : Nat} {inb : Nat → Byte} :
    pixelOutOfRange d W H inb = true ↔ d = .bpp4 ∧ ∃ a, a < W * H ∧ 15 < (inb a).toNat := by
  cases d <;> simp [pixelOutOfRange, List.any_eq_true]

/-- R104: what a command commits fits OUT, and every register value below 2^32. -/
theorem commit_fits {i : Instr} {s : State} (hl : s.cfg.legal) {out : Nat → Byte} {len w hgt n : Nat}
    (hc : checkOf i s.snapshot = none) (hr : computeOf i s.snapshot s.inb = .ok out len w hgt n) :
    len ≤ s.cfg.outSize ∧ len < 2 ^ 32 ∧ w < 2 ^ 32 ∧ hgt < 2 ^ 32 ∧ w % 8 = 0 ∧ hgt % 8 = 0 := by
  obtain ⟨_, _, _, ho⟩ := hl
  have hA := s.argA.isLt
  have hB := s.argB.isLt
  have hL := s.inLen.isLt
  have dec : ∀ d, tileDecodeCheck d s.snapshot = none → tileDecodeCompute d s.snapshot s.inb = .ok out len w hgt n →
      len ≤ s.cfg.outSize ∧ len < 2 ^ 32 ∧ w < 2 ^ 32 ∧ hgt < 2 ^ 32 ∧ w % 8 = 0 ∧ hgt % 8 = 0 := by
    intro d hc hr
    simp only [tileDecodeCheck_none, State.snapshot_argA, State.snapshot_inLen, State.snapshot_outSize] at hc
    simp only [tileDecodeCompute, CmdResult.ok.injEq, State.snapshot_argA, State.snapshot_inLen] at hr
    obtain ⟨_, rfl, rfl, rfl, _⟩ := hr
    have hh := decodeHeight_lt (d := d) (T := s.argA.toNat) (by omega) hL
    have : decodeHeight d s.inLen.toNat s.argA.toNat % 8 = 0 := by simp [decodeHeight]
    omega
  have enc : ∀ d, tileEncodeCheck d s.snapshot = none → tileEncodeCompute d s.snapshot s.inb = .ok out len w hgt n →
      len ≤ s.cfg.outSize ∧ len < 2 ^ 32 ∧ w < 2 ^ 32 ∧ hgt < 2 ^ 32 ∧ w % 8 = 0 ∧ hgt % 8 = 0 := by
    intro d hc hr
    simp only [tileEncodeCheck_none, State.snapshot_argA, State.snapshot_argB, State.snapshot_outSize] at hc
    simp only [tileEncodeCompute, State.snapshot_argA, State.snapshot_argB] at hr
    cases hp : pixelOutOfRange d s.argA.toNat s.argB.toNat s.inb with
    | true => rw [hp] at hr; cases hr
    | false =>
      rw [hp] at hr
      simp only [CmdResult.ok.injEq] at hr
      obtain ⟨_, rfl, rfl, rfl, _⟩ := hr
      omega
  cases i with
  | tdec4 => exact dec _ hc hr
  | tdec8 => exact dec _ hc hr
  | tenc4 => exact enc _ hc hr
  | tenc8 => exact enc _ hc hr
  | cdec =>
    have hc := colorDecodeCheck_none.1 hc
    simp only [computeOf, colorDecodeCompute, CmdResult.ok.injEq, State.snapshot_inLen, State.snapshot_outSize]
      at hc hr
    omega
  | cenc =>
    have hc := colorEncodeCheck_none.1 hc
    simp only [computeOf, colorEncodeCompute, CmdResult.ok.injEq, State.snapshot_argA, State.snapshot_outSize]
      at hc hr
    omega

/-! The compute phases, byte by byte. -/

/-- What a successful TILE_DECODE commits (R130). -/
theorem tileDecode_succeeds {d : Depth} {s : State} (h : tileDecodeCheck d s.snapshot = none) :
    tileDecode d s = .next (s.commitOk
      (fun a => decodedPixel d s.argA.toNat (tileCountOf d s.inLen.toNat) s.inb (a % (s.argA.toNat * 8))
        (a / (s.argA.toNat * 8)))
      (s.argA.toNat * 8 * decodeHeight d s.inLen.toNat s.argA.toNat) (s.argA.toNat * 8)
      (decodeHeight d s.inLen.toNat s.argA.toNat) (tileCountOf d s.inLen.toNat)).nextDraw :=
  runCommand_succeeds h rfl

/-- What a successful TILE_ENCODE commits (R131). -/
theorem tileEncode_succeeds {d : Depth} {s : State} (h : tileEncodeCheck d s.snapshot = none)
    (hp : pixelOutOfRange d s.argA.toNat s.argB.toNat s.inb = false) :
    tileEncode d s = .next (s.commitOk
      (fun a => packTileByte d s.argA.toNat s.inb (a / bytesPerTile d) (a % bytesPerTile d))
      (rasterTiles s.argA.toNat s.argB.toNat * bytesPerTile d) s.argA.toNat s.argB.toNat
      (rasterTiles s.argA.toNat s.argB.toNat)).nextDraw :=
  runCommand_succeeds h (by simp [tileEncodeCompute, hp])

/-- R128: a pixel out of range fails the whole command. -/
theorem tileEncode_pixel_fails {d : Depth} {s : State} (h : tileEncodeCheck d s.snapshot = none)
    (hp : pixelOutOfRange d s.argA.toNat s.argB.toNat s.inb = true) :
    tileEncode d s = .next (s.commitFail .pixelIndexOutOfRange).nextDraw :=
  runCommand_compute_fails h (by simp [tileEncodeCompute, hp])

/-- What a successful COLOR_DECODE commits (R170). -/
theorem execCdec_succeeds {s : State} (h : colorDecodeCheck s.snapshot = none) :
    execCdec s = .next (s.commitOk (fun a => decodedChannel (entryWord s.inb (a / 3)) (a % 3))
      (3 * (s.inLen.toNat / 2)) 0 0 (s.inLen.toNat / 2)).nextDraw :=
  runCommand_succeeds h rfl

/-- What a successful COLOR_ENCODE commits (R171). -/
theorem execCenc_succeeds {s : State} (h : colorEncodeCheck s.snapshot = none) :
    execCenc s = .next (s.commitOk (fun a => wordByte (encodedWord s.inb (a / 2)) (a % 2))
      (2 * s.argA.toNat) 0 0 s.argA.toNat).nextDraw :=
  runCommand_succeeds h rfl

/-- Every byte that TILE_DECODE reads stands before the buffer's end (R55, R129). -/
theorem unpack_offset_lt {d : Depth} {L t p : Nat} (h : t < tileCountOf d L) (hp : p < 64) :
    (match d with
      | .bpp8 => t * 64 + p
      | .bpp4 => t * 32 + p / 2) < L := by
  have := Nat.div_mul_le_self L (bytesPerTile d)
  have : (t + 1) * bytesPerTile d ≤ tileCountOf d L * bytesPerTile d := Nat.mul_le_mul_right _ h
  rw [Nat.add_mul, Nat.one_mul] at this
  cases d <;> simp only [tileCountOf, bytesPerTile] at * <;> omega

theorem unpackPixel_congr {d : Depth} {f g : Nat → Byte} {L t p : Nat} (h : t < tileCountOf d L) (hp : p < 64)
    (e : ∀ a, a < L → f a = g a) : unpackPixel d f t p = unpackPixel d g t p := by
  have := unpack_offset_lt h hp
  cases d <;> simp only [unpackPixel] <;> rw [e _ this]

/-- TILE_DECODE's pixels depend only on the buffer (R105). -/
theorem decodedPixel_congr {d : Depth} {f g : Nat → Byte} {T L : Nat} (e : ∀ a, a < L → f a = g a) (x y : Nat) :
    decodedPixel d T (tileCountOf d L) f x y = decodedPixel d T (tileCountOf d L) g x y := by
  unfold decodedPixel
  split
  · rfl
  · exact unpackPixel_congr (by omega) (pixelInTile_lt x y) e

/-- Every byte that TILE_ENCODE reads stands in the raster (R55). -/
theorem tile_offset_lt {W H t p : Nat} (hW : W % 8 = 0) (hH : H % 8 = 0) (ht : t < rasterTiles W H) (hp : p < 64) :
    rasterY (W / 8) t p * W + rasterX (W / 8) t p < W * H := by
  have eW : W / 8 * 8 = W := by omega
  have eH : H / 8 * 8 = H := by omega
  have := raster_offset_lt (T := W / 8) (R := H / 8) ht hp
  rwa [eW, eH] at this

/-- TILE_ENCODE's bytes depend only on the raster (R105). -/
theorem packTileByte_congr {d : Depth} {f g : Nat → Byte} {W H t k : Nat} (hW : W % 8 = 0) (hH : H % 8 = 0)
    (ht : t < rasterTiles W H) (hk : k < bytesPerTile d) (e : ∀ a, a < W * H → f a = g a) :
    packTileByte d W f t k = packTileByte d W g t k := by
  have px : ∀ p, p < 64 → tilePixel W f t p = tilePixel W g t p := fun p hp => e _ (tile_offset_lt hW hH ht hp)
  cases d with
  | bpp8 => exact px k hk
  | bpp4 =>
    have hk : k < 32 := hk
    simp only [packTileByte, pack4, px (2 * k) (by omega), px (2 * k + 1) (by omega)]

theorem pixelOutOfRange_congr {d : Depth} {f g : Nat → Byte} {W H : Nat} (e : ∀ a, a < W * H → f a = g a) :
    pixelOutOfRange d W H f = pixelOutOfRange d W H g := by
  rw [Bool.eq_iff_iff, pixelOutOfRange_eq_true, pixelOutOfRange_eq_true]
  refine and_congr_right fun _ => exists_congr fun a => and_congr_right fun ha => ?_
  rw [e a ha]

end Sys2Proof.Machine
end

