-- ==== Sys2Proof/Laws/PerInstr.lean ====
section
/-! SUPPORT. Sys2Proof/Laws/PerInstr.lean: facts about every command, one lemma per constructor. -/

namespace Sys2Proof.Laws.LegalEncoding

/-- The word of a command has legal fields (30_encoding.md R81, R83), and the bits its row of opcode_table.json selects
are the whole of it: the bits the mask leaves out are 0 in the encoded word (R87). -/
def Statement (i : Instr) : Prop :=
  (fieldsOf (encode i)).legal = true ∧ encode i &&& encodingMask i = encode i

theorem tdec4 : Statement .tdec4 := by unfold Statement; decide
theorem tdec8 : Statement .tdec8 := by unfold Statement; decide
theorem tenc4 : Statement .tenc4 := by unfold Statement; decide
theorem tenc8 : Statement .tenc8 := by unfold Statement; decide
theorem cdec : Statement .cdec := by unfold Statement; decide
theorem cenc : Statement .cenc := by unfold Statement; decide

end Sys2Proof.Laws.LegalEncoding
end

