-- ==== Sys2Proof/Laws/Step.lean ====
section
/-! SUPPORT. Sys2Proof/Laws/Step.lean: what one step does for each host event (10_state.md R20, R35; 20_memory.md R51),
that it stops exactly on an access with no defined effect, and that runs compose. -/

namespace Sys2Proof.Machine

theorem step_idle {s : State} (h : s.pending = []) : step s = .next s := by
  simp [step, hostStep, h]

theorem step_event {s : State} {e : HostEvent} {rest : List HostEvent} (h : s.pending = e :: rest) :
    step s = hostEvent e { s with pending := rest } := by
  simp [step, hostStep, h]

/-! The register map (R22). -/

theorem RegName.atOffset_offset (r : RegName) : RegName.atOffset r.offset = some r := by
  cases r <;> rfl

theorem RegName.offset_of_atOffset {off : Nat} {r : RegName} (h : RegName.atOffset off = some r) : r.offset = off := by
  have := List.find?_some h
  simpa using this

/-- R34: an offset is reserved when no register has it. -/
theorem RegName.atOffset_eq_none {off : Nat} (h : ∀ r : RegName, r.offset ≠ off) : RegName.atOffset off = none := by
  cases e : RegName.atOffset off with
  | none => rfl
  | some r => exact absurd (RegName.offset_of_atOffset e) (h r)

/-! Host events. -/

theorem onCmdWrite_ok {v : Word} {i : Instr} (h : decodeCmd v = .ok i) (s : State) : onCmdWrite v s = exec i s := by
  simp [onCmdWrite, h]

theorem onCmdWrite_illegal {v : Word} {e : IllegalWord} (h : decodeCmd v = .error e) (s : State) :
    onCmdWrite v s = .next (s.commitFail .illegalCommand) := by
  simp [onCmdWrite, h]

/-- Every CMD write completes, and what it never changes (R83, R102, R103, R106). -/
theorem onCmdWrite_next (v : Word) (s : State) : ∃ t, onCmdWrite v s = .next t ∧
    t.cfg = s.cfg ∧ t.inLen = s.inLen ∧ t.argA = s.argA ∧ t.argB = s.argB ∧ t.inMem = s.inMem ∧
      t.pending = s.pending ∧ t.readData = s.readData ∧ t.done = true := by
  cases h : decodeCmd v with
  | ok i =>
    obtain ⟨t, ht⟩ := exec_next i s
    exact ⟨t, by rw [onCmdWrite_ok h, ht], exec_frame ht⟩
  | error e => exact ⟨_, onCmdWrite_illegal h s, by simp⟩

theorem hostRegWrite_cmd {width : Nat} {data : HostData} (s : State) (h : width = 4) :
    hostRegWrite 0x00 width data s = onCmdWrite (s.dataValue data) s := by
  subst h; rfl

theorem hostRegWrite_reg {off : Nat} {r : RegName} {data : HostData} {s : State} (ha : regAccessAllowed off 4)
    (h : RegName.atOffset off = some r) (hr : r ≠ .cmd) :
    hostRegWrite off 4 data s = .next (s.writeReg r (s.dataValue data)) := by
  cases r <;> simp [hostRegWrite, ha, h] at hr ⊢

theorem hostRegWrite_reserved {off : Nat} {data : HostData} {s : State} (ha : regAccessAllowed off 4)
    (h : RegName.atOffset off = none) : hostRegWrite off 4 data s = .next s := by
  simp [hostRegWrite, ha, h]

/-- A host event completes exactly when it is allowed. -/
theorem hostEvent_allowed {e : HostEvent} {s : State} (h : e.allowed s.cfg = true) : ∃ t, hostEvent e s = .next t := by
  cases e with
  | regRead off width =>
    have h : regAccessAllowed off width := of_decide_eq_true h
    exact ⟨_, by simp only [hostEvent, hostRegRead, if_pos h]; rfl⟩
  | regWrite off width data =>
    have h : regAccessAllowed off width := of_decide_eq_true h
    simp only [hostEvent, hostRegWrite, if_pos h]
    split
    · obtain ⟨t, ht, _⟩ := onCmdWrite_next (s.dataValue data) s
      exact ⟨t, ht⟩
    · exact ⟨_, rfl⟩
    · exact ⟨_, rfl⟩
  | memRead space off width =>
    have h : memAccessAllowed (space.size s.cfg) off width := of_decide_eq_true h
    exact ⟨_, by simp only [hostEvent, hostMemRead, if_pos h]; rfl⟩
  | memWrite space off width data =>
    have h : memAccessAllowed (space.size s.cfg) off width := of_decide_eq_true h
    exact ⟨_, by simp only [hostEvent, hostMemWrite, if_pos h]; rfl⟩
  | reset => exact ⟨_, rfl⟩

theorem hostEvent_stuck {e : HostEvent} {s : State} (h : e.allowed s.cfg = false) :
    hostEvent e s = .fault .stuckRegisterAccess ∨ hostEvent e s = .fault .stuckMemoryAccess := by
  cases e with
  | regRead off width =>
    have h : ¬ regAccessAllowed off width := of_decide_eq_false h
    exact .inl (by simp only [hostEvent, hostRegRead, if_neg h])
  | regWrite off width data =>
    have h : ¬ regAccessAllowed off width := of_decide_eq_false h
    exact .inl (by simp only [hostEvent, hostRegWrite, if_neg h])
  | memRead space off width =>
    have h : ¬ memAccessAllowed (space.size s.cfg) off width := of_decide_eq_false h
    exact .inr (by simp only [hostEvent, hostMemRead, if_neg h])
  | memWrite space off width data =>
    have h : ¬ memAccessAllowed (space.size s.cfg) off width := of_decide_eq_false h
    exact .inr (by simp only [hostEvent, hostMemWrite, if_neg h])
  | reset => simp [HostEvent.allowed] at h

/-- Everything a host event that completes can do. -/
theorem hostEvent_cases {e : HostEvent} {s t : State} (h : hostEvent e s = .next t) :
    (∃ off width, e = .regRead off width ∧ t = s.setReadData (s.readOffset off)) ∨
    (∃ data, e = .regWrite 0x00 4 data ∧ onCmdWrite (s.dataValue data) s = .next t) ∨
    (∃ r data, r ≠ .cmd ∧ e = .regWrite (RegName.offset r) 4 data ∧ t = s.writeReg r (s.dataValue data)) ∨
    (∃ off width data, RegName.atOffset off = none ∧ e = .regWrite off width data ∧ t = s) ∨
    (∃ space off width, memAccessAllowed (space.size s.cfg) off width ∧ e = .memRead space off width ∧
      t = (s.setReadData ((s.mem space).readLE s.draws off width)).nextDraw) ∨
    (∃ space off width data, memAccessAllowed (space.size s.cfg) off width ∧ e = .memWrite space off width data ∧
      t = s.setMem space ((s.mem space).writeLE off width (s.dataValue data))) ∨
    (e = .reset ∧ t = s.resetBlock) := by
  cases e with
  | regRead off width =>
    simp only [hostEvent, hostRegRead] at h
    split at h
    · cases h; exact .inl ⟨off, width, rfl, rfl⟩
    · simp at h
  | regWrite off width data =>
    simp only [hostEvent, hostRegWrite] at h
    split at h
    · rename_i ha
      obtain ⟨rfl, _⟩ := ha
      split at h
      · rename_i hr
        have : off = 0 := (RegName.offset_of_atOffset hr).symm
        subst this
        exact .inr (.inl ⟨data, rfl, h⟩)
      · rename_i r hne hr
        cases h
        exact .inr (.inr (.inl ⟨r, data, hne, by rw [RegName.offset_of_atOffset hr], rfl⟩))
      · rename_i hr
        cases h
        exact .inr (.inr (.inr (.inl ⟨off, 4, data, hr, rfl, rfl⟩)))
    · simp at h
  | memRead space off width =>
    simp only [hostEvent, hostMemRead] at h
    split at h
    · rename_i ha; cases h
      exact .inr (.inr (.inr (.inr (.inl ⟨space, off, width, ha, rfl, rfl⟩))))
    · simp at h
  | memWrite space off width data =>
    simp only [hostEvent, hostMemWrite] at h
    split at h
    · rename_i ha; cases h
      exact .inr (.inr (.inr (.inr (.inr (.inl ⟨space, off, width, data, ha, rfl, rfl⟩)))))
    · simp at h
  | reset => cases h; exact .inr (.inr (.inr (.inr (.inr (.inr ⟨rfl, rfl⟩)))))

/-- Everything a step that completes can do: stay idle, or take the first host event. -/
theorem step_cases {s t : State} (h : step s = .next t) :
    (s.pending = [] ∧ t = s) ∨
    (∃ e rest, s.pending = e :: rest ∧ hostEvent e { s with pending := rest } = .next t) := by
  cases hp : s.pending with
  | nil => rw [step_idle hp] at h; cases h; exact .inl ⟨rfl, rfl⟩
  | cons e rest => rw [step_event hp] at h; exact .inr ⟨e, rest, rfl, h⟩

/-! Runs. -/

theorem run_zero (s : State) : run 0 s = .next s := by
  simp only [run, Host.Core.run]; rfl

theorem run_succ_of_next {n : Nat} {s t : State} (h : step s = .next t) : run (n + 1) s = run n t := by
  have h : Sys2Proof.core.step s = .next t := h
  simp only [run, Host.Core.run, h]; rfl

theorem next_of_run_succ {n : Nat} {s t : State} (h : run (n + 1) s = .next t) :
    ∃ m, step s = .next m ∧ run n m = .next t := by
  cases hs : step s with
  | next m => exact ⟨m, rfl, by rw [← run_succ_of_next hs, h]⟩
  | fault r =>
    have hs : Sys2Proof.core.step s = .fault r := hs
    simp [run, Host.Core.run, hs] at h
  | refused r =>
    have hs : Sys2Proof.core.step s = .refused r := hs
    simp [run, Host.Core.run, hs] at h

/-- A run of `m` steps that completes can be followed by any run from where it ends. -/
theorem run_add {m n : Nat} {s t : State} (h : run m s = .next t) : run (m + n) s = run n t := by
  induction m generalizing s with
  | zero => rw [run_zero] at h; cases h; rw [Nat.zero_add]
  | succ m ih =>
    obtain ⟨s', hs, hr⟩ := next_of_run_succ h
    rw [Nat.add_right_comm, run_succ_of_next hs, ih hr]

end Sys2Proof.Machine
end

