-- ==== Sys2Proof/Tests/Slice0.lean ====
section
/-! SUPPORT. Sys2Proof/Tests/Slice0.lean: the model's own tests, their expected values from 95_test_vectors.md or counted
by hand from the rules, and for each obligation with hypotheses a witness that they can be met together. -/

namespace Sys2Proof.Tests

open Sys2Proof.Machine Sys2Proof.Certificates

/-! Helpers. -/

/-- A memory whose first `n` bytes are `f 0 … f (n − 1)`. -/
def bytes (n : Nat) (f : Nat → Byte) : Memory := (List.range n).map fun i => (i, f i)

/-- The state an outcome goes on with. -/
def nextOf (o : Host.Outcome State Fault Refusal) : State :=
  match o with
  | .next t => t
  | _ => State.reset

def isNext (o : Host.Outcome State Fault Refusal) : Bool :=
  match o with
  | .next _ => true
  | _ => false

def stopsWith (o : Host.Outcome State Fault Refusal) (r : Fault) : Bool :=
  match o with
  | .fault q => q == r
  | _ => false

/-- The reset state with host events to come. -/
def hosted (l : List HostEvent) : State := { State.reset with pending := l }

/-- The host has copied OUT to IN and set the operands. -/
def handed (t : State) (inLen argA argB : Word) : State :=
  { t with inMem := t.outMem, inLen := inLen, argA := argA, argB := argB }

/-! Decoding: words written out from the fields of 30_encoding.md R80 (RSV1, DEPTH, RSV0, OP). -/

theorem test_decode_tdec4 : decodeCmd 0b000000000000000000000000000_0_0_001 = .ok .tdec4 := by decide
theorem test_decode_tdec8 : decodeCmd 0b000000000000000000000000000_1_0_001 = .ok .tdec8 := by decide
theorem test_decode_tenc4 : decodeCmd 0b000000000000000000000000000_0_0_010 = .ok .tenc4 := by decide
theorem test_decode_tenc8 : decodeCmd 0b000000000000000000000000000_1_0_010 = .ok .tenc8 := by decide
theorem test_decode_cdec : decodeCmd 0b000000000000000000000000000_0_0_011 = .ok .cdec := by decide
theorem test_decode_cdec_depth : decodeCmd 0b000000000000000000000000000_1_0_011 = .ok .cdec := by decide
theorem test_decode_cenc : decodeCmd 0b000000000000000000000000000_0_0_100 = .ok .cenc := by decide
theorem test_decode_cenc_depth : decodeCmd 0b000000000000000000000000000_1_0_100 = .ok .cenc := by decide

/-- EN-9 to EN-16. -/
theorem test_decode_illegal :
    decodeCmd 0x00000000 = .error .reservedOp ∧ decodeCmd 0x00000005 = .error .reservedOp ∧
    decodeCmd 0x00000006 = .error .reservedOp ∧ decodeCmd 0x00000017 = .error .reservedOp ∧
    decodeCmd 0x00000009 = .error .reservedBits ∧ decodeCmd 0x00000019 = .error .reservedBits ∧
    decodeCmd 0x00000021 = .error .reservedBits ∧ decodeCmd 0x80000003 = .error .reservedBits ∧
    decodeCmd 0xFFFFFFFF = .error .reservedBits := by decide

/-- R87's words. -/
theorem test_encode : allInstr.map encode = [0x01, 0x11, 0x02, 0x12, 0x03, 0x04] := by decide

/-- R87: the assembler and the disassembler. -/
theorem test_assemble : assembleMnemonic "tenc.8" = some 0x12 ∧ assembleMnemonic "cenc" = some 0x04 ∧
    assembleMnemonic "tdec" = none := by decide
theorem test_disassemble : disassemble 0x13 = "cdec" ∧ disassemble 0x14 = "cenc" ∧ disassemble 0x11 = "tdec.8" ∧
    disassemble 0x8000000A = ".word 0x8000000A" := by decide

/-- Every row's word runs as the first command after reset. -/
theorem test_first_command_runs : ∀ w ∈ [0x01, 0x11, 0x02, 0x12, 0x03, 0x04, 0x13, 0x14],
    (decodeTableWord 32 w).isSome = true ∧ (nextOf (step (State.reset.withFetchWord 32 w))).done = true := by decide

/-! Well-formedness: an ill-formed term for each check. -/

theorem test_wf_rsv0 : CmdFields.legal { op := 1, rsv0 := 1, depth := 0, rsv1 := 0 } = false := by decide
theorem test_wf_rsv1 : CmdFields.legal { op := 1, rsv0 := 0, depth := 0, rsv1 := 1 } = false := by decide
theorem test_wf_op : CmdFields.legal { op := 5, rsv0 := 0, depth := 0, rsv1 := 0 } = false := by decide
theorem test_wf_legal : CmdFields.legal { op := 4, rsv0 := 0, depth := 1, rsv1 := 0 } = true := by decide
theorem test_wf_instr : ∀ i ∈ allInstr, i.wellFormed = true := by decide
theorem test_wf_reg_width : HostEvent.allowed Config.default (.regRead 0x04 2) = false := by decide
theorem test_wf_reg_aligned : HostEvent.allowed Config.default (.regWrite 0x02 4 (.imm 0)) = false := by decide
theorem test_wf_reg_window : HostEvent.allowed Config.default (.regRead 0x100 4) = false := by decide
theorem test_wf_mem_width : HostEvent.allowed Config.default (.memRead .inMem 0 3) = false := by decide
theorem test_wf_mem_aligned : HostEvent.allowed Config.default (.memWrite .outMem 2 4 (.imm 0)) = false := by decide
theorem test_wf_mem_end : HostEvent.allowed Config.default (.memRead .inMem 4096 1) = false := by decide
theorem test_wf_config : ¬ Config.legal ⟨767, 4096⟩ ∧ ¬ Config.legal ⟨4096, 2 ^ 32⟩ := by decide

/-! One command each. -/

/-- TD-2: the low nibble of 0x21 is the left pixel. -/
def td2 : State := { State.reset with inLen := 32, argA := 1, inMem := bytes 32 fun i => if i = 0 then 0x21 else 0 }

theorem test_tdec4_nibbles : (nextOf (exec .tdec4 td2)).outMem.read 0 = some 1 ∧
    (nextOf (exec .tdec4 td2)).outMem.read 1 = some 2 ∧ (nextOf (exec .tdec4 td2)).outMem.read 2 = some 0 := by decide

/-- TD-2: RES and STATUS. -/
theorem test_tdec4_results : (fun t : State => (t.resLen, t.resW, t.resH, t.resCount, statusWord t.code t.done))
    (nextOf (exec .tdec4 td2)) = (64, 8, 8, 1, 0x100) := by decide

/-- TD-6: three tiles, two in a row; the fourth is padding. -/
def td6 : State := { State.reset with inLen := 192, argA := 2, inMem := bytes 192 fun i => BitVec.ofNat 8 (i / 64 + 1) }

theorem test_tdec8_padding : [0, 8, 128, 136, 255].map (nextOf (exec .tdec8 td6)).outMem.read
    = [some 1, some 2, some 3, some 0, some 0] := by decide +kernel

/-- TD-15. -/
theorem test_tdec8_malformed : (nextOf (exec .tdec8 { State.reset with inLen := 32, argA := 1 })).code
    = .malformedBuffer := by decide

/-- TE-3: pixel (x, y) = (x + y) mod 16. -/
def te3 : State :=
  { State.reset with argA := 8, argB := 8, inMem := bytes 64 fun i => BitVec.ofNat 8 ((i % 8 + i / 8) % 16) }

theorem test_tenc4_packs : [0, 1, 4, 31].map (nextOf (exec .tenc4 te3)).outMem.read
    = [some 0x10, some 0x32, some 0x21, some 0xED] := by decide +kernel

/-- TE-13: one pixel of 16 fails the command and nothing is written. -/
def te13 : State := { State.reset with argA := 8, argB := 8, inMem := bytes 64 fun i => if i = 63 then 16 else 0 }

theorem test_tenc4_range : (nextOf (exec .tenc4 te13)).code = .pixelIndexOutOfRange ∧
    (nextOf (exec .tenc4 te13)).outMem = [] := by decide +kernel

/-- TE-4: 16 × 8, pixel (x, y) = x. -/
def te4 : State := { State.reset with argA := 16, argB := 8, inMem := bytes 128 fun i => BitVec.ofNat 8 (i % 16) }

theorem test_tenc8_tiles : [7, 8, 64, 127].map (nextOf (exec .tenc8 te4)).outMem.read
    = [some 7, some 0, some 8, some 15] := by decide +kernel

/-- TE-14: at 8 bpp a pixel of 16 is accepted. -/
theorem test_tenc8_accepts : (nextOf (exec .tenc8 te13)).outMem.read 63 = some 16 := by decide +kernel

/-- CD-8: 0x1234, with the other entries 0. -/
def cd8 : State :=
  { State.reset with inLen := 32, inMem := bytes 32 fun i => if i = 0 then 0x34 else if i = 1 then 0x12 else 0 }

theorem test_cdec_channels : [0, 1, 2, 3].map (nextOf (exec .cdec cd8)).outMem.read
    = [some 160, some 136, some 32, some 0] := by decide +kernel

/-- CD-15. -/
theorem test_cdec_length : (nextOf (exec .cdec { State.reset with inLen := 33 })).code = .unsupportedPaletteSize := by
  decide

/-- CE-4: (100, 150, 200) is the word 0x664C. -/
def ce4 : State :=
  { State.reset with
    argA := 16
    inMem := bytes 48 fun i => if i = 0 then 100 else if i = 1 then 150 else if i = 2 then 200 else 0 }

theorem test_cenc_word : [0, 1, 2].map (nextOf (exec .cenc ce4)).outMem.read = [some 0x4C, some 0x66, some 0] := by
  decide +kernel

/-- CE-11. -/
theorem test_cenc_count : (nextOf (exec .cenc { State.reset with argA := 17 })).code = .unsupportedPaletteSize := by
  decide

/-! Host accesses. -/

/-- MM-1: a 4-byte write is little-endian. -/
theorem test_sw_bytes : (nextOf (step (hosted [.memWrite .inMem 0 4 (.imm 0x12345678)]))).inMem
    = [(0, 0x78), (1, 0x56), (2, 0x34), (3, 0x12)] := by decide

/-- MM-1: a 2-byte read is little-endian and zero-extended. -/
theorem test_lh : (nextOf (step { hosted [.memRead .inMem 2 2] with
    inMem := [(0, 0x78), (1, 0x56), (2, 0x34), (3, 0x12)] })).readData = 0x1234 := by decide

/-- EN-17: an illegal word is reported first. -/
theorem test_illegal_first : (nextOf (step (hosted [cmdWrite 0x09]))).code = .illegalCommand := by decide

/-- RG-8: CAP_IN reads IN_SIZE. -/
theorem test_cap : (nextOf (step (hosted [.regRead 0x24 4]))).readData = 4096 := by decide

/-- RG-9 and MM-3: stuck accesses. -/
theorem test_stuck : stopsWith (step (hosted [.regRead 0x100 4])) .stuckRegisterAccess = true ∧
    stopsWith (step (hosted [.memRead .inMem 1 2])) .stuckMemoryAccess = true := by decide

/-! Witnesses: for each obligation, its hypotheses can be met together, at the ends of their ranges. -/

theorem witness_DecodeUndoesEncode : Instr.cenc.wellFormed = true := by decide

theorem witness_StepRunsDecodedCommand :
    (hosted [cmdWrite 0x13, .reset]).pending = .regWrite 0x00 4 (.imm 0x13) :: [.reset] ∧
    decodeCmd ((hosted [cmdWrite 0x13, .reset]).dataValue (.imm 0x13)) = .ok .cdec ∧
    decodeTableWord 32 0x12 = some .tenc8 := by decide

/-- Every disjunct of the illegal words: OP 0, 5, 6, 7, bit 3, bits [31:5] at both ends. -/
theorem witness_IllegalWordOnlyReportsIllegalCommand :
    (0x10 : Word).extractLsb' 0 3 = 0b000 ∧ (0x05 : Word).extractLsb' 0 3 = 0b101 ∧
    (0x06 : Word).extractLsb' 0 3 = 0b110 ∧ (0x17 : Word).extractLsb' 0 3 = 0b111 ∧
    (0x09 : Word).getLsbD 3 = true ∧ (0x21 : Word).extractLsb' 5 27 ≠ 0 ∧ (0x80000003 : Word).extractLsb' 5 27 ≠ 0 ∧
    (∀ w ∈ ([0x10, 0x05, 0x06, 0x17, 0x09, 0x21, 0x80000003] : List Word),
      (hosted [cmdWrite w]).pending = .regWrite 0x00 4 (.imm w) :: []) := by
  exact ⟨by decide, by decide, by decide, by decide, by decide, by decide, by decide, fun _ _ => rfl⟩

theorem witness_EveryCommandWordCompletesInOneStep :
    (hosted [.regWrite 0x00 4 .lastRead]).pending = .regWrite 0x00 4 .lastRead :: [] := by decide

theorem witness_NothingChangesWithoutHostEvent : State.reset.pending = [] := by decide

theorem witness_RegisterReadsFollowTheMap : ∀ offset ∈ [0x00, 0x04, 0x28, 0x2C, 0xFC],
    (hosted [.regRead offset 4]).pending = .regRead offset 4 :: [] ∧ offset % 4 = 0 ∧ offset < 0x100 := by decide

theorem witness_RegisterWritesReachOnlyTheOperands : ∀ offset ∈ [0x04, 0x08, 0x0C, 0x10, 0x2C, 0xFC],
    (hosted [.regWrite offset 4 (.imm 7)]).pending = .regWrite offset 4 (.imm 7) :: [] ∧ offset % 4 = 0 ∧
    offset < 0x100 ∧ offset ≠ 0x00 := by decide

theorem witness_UndefinedRegisterAccessStops : ∀ c ∈ [(0x04, 2), (0x02, 4), (0x100, 4)],
    ¬ (c.2 = 4 ∧ c.1 % 4 = 0 ∧ c.1 < 0x100) ∧ (hosted [.regRead c.1 c.2]).pending = .regRead c.1 c.2 :: [] ∧
    (hosted [.regWrite c.1 c.2 .lastRead]).pending = .regWrite c.1 c.2 .lastRead :: [] := by decide

/-- The last four bytes of IN, three of them written. -/
def lastBytes : State :=
  { hosted [.memRead .inMem 4092 4] with inMem := [(4092, 1), (4093, 2), (4095, 3)] }

theorem witness_MemoryReadReturnsBytesLittleEndian :
    lastBytes.pending = .memRead .inMem 4092 4 :: [] ∧ 4092 % 4 = 0 ∧ 4092 + 4 ≤ Space.inMem.size lastBytes.cfg ∧
    (lastBytes.mem .inMem).read (4092 + 3) = some 3 ∧ (lastBytes.mem .inMem).read (4092 + 2) = none := by decide

theorem witness_MemoryWriteStoresBytesLittleEndian : ∀ space ∈ [Space.inMem, .outMem], ∀ width ∈ [1, 2, 4],
    (hosted [.memWrite space (4096 - width) width (.imm 9)]).pending = .memWrite space (4096 - width) width (.imm 9) :: [] ∧
    (4096 - width) % width = 0 ∧ 4096 - width + width ≤ space.size State.reset.cfg := by decide

theorem witness_HostReadsBackWhatItWrote :
    (hosted [.memWrite .outMem 4094 2 (.imm 0x12345), .memRead .outMem 4094 2]).pending
      = .memWrite .outMem 4094 2 (.imm 0x12345) :: .memRead .outMem 4094 2 :: [] ∧
    4094 % 2 = 0 ∧ 4094 + 2 ≤ Space.outMem.size State.reset.cfg := by decide

theorem witness_UndefinedMemoryAccessStops : ∀ c ∈ [(0, 3), (1, 2), (4096, 1), (0, 0)],
    ¬ ((c.2 = 1 ∨ c.2 = 2 ∨ c.2 = 4) ∧ c.1 % c.2 = 0 ∧ c.1 + c.2 ≤ Space.inMem.size State.reset.cfg) ∧
    (hosted [.memRead .inMem c.1 c.2]).pending = .memRead .inMem c.1 c.2 :: [] := by decide

theorem witness_ResetLeavesTheResetState : (hosted [.reset, .regRead 0x04 4]).pending = .reset :: [.regRead 0x04 4] := by
  decide

/-- One (T, L) for each clause: T = 0 with L = 33; L one off a tile; then too long a buffer, too wide a raster (2^29 tiles
per row) and too large an output, each one past what fits. -/
theorem witness_TileDecodeReportsErrorsInOrder :
    (let s := State.reset; s.argA.toNat = 0) ∧
    (let s := { State.reset with argA := 1, inLen := 33 }
     s.argA.toNat ≠ 0 ∧ s.inLen.toNat % tileBytes .bpp4 ≠ 0) ∧
    (let s := { State.reset with argA := 1, inLen := 4128 }
     s.argA.toNat ≠ 0 ∧ s.inLen.toNat % tileBytes .bpp4 = 0 ∧ s.cfg.inSize < s.inLen.toNat) ∧
    (let s := { State.reset with argA := 0x20000000 }
     s.argA.toNat ≠ 0 ∧ s.inLen.toNat % tileBytes .bpp8 = 0 ∧ 2 ^ 32 ≤ s.argA.toNat * 8) ∧
    (let s := { State.reset with argA := 1, inLen := 2080 }
     s.argA.toNat ≠ 0 ∧ s.inLen.toNat % tileBytes .bpp4 = 0 ∧
     s.cfg.outSize < s.argA.toNat * 8 * ((s.inLen.toNat / tileBytes .bpp4 + s.argA.toNat - 1) / s.argA.toNat * 8)) := by
  decide

theorem witness_TileEncodeReportsErrorsInOrder :
    (let s := { State.reset with argA := 12, argB := 8 }
     s.argA.toNat % 8 ≠ 0) ∧
    (let s := { State.reset with argA := 8, argB := 4 }
     s.argB.toNat % 8 ≠ 0) ∧
    (let s := { State.reset with argA := 64, argB := 72 }
     s.argA.toNat % 8 = 0 ∧ s.argB.toNat % 8 = 0 ∧ ¬ s.argA.toNat * s.argB.toNat ≤ s.cfg.inSize) ∧
    (te13.argA.toNat % 8 = 0 ∧ te13.argB.toNat % 8 = 0 ∧ te13.argA.toNat * te13.argB.toNat ≤ te13.cfg.inSize ∧
     te13.argA.toNat / 8 * (te13.argB.toNat / 8) * tileBytes .bpp4 ≤ te13.cfg.outSize ∧
     63 < te13.argA.toNat * te13.argB.toNat ∧ 15 < (inputByte te13 63).toNat) := by decide +kernel

theorem witness_ColourCommandsRejectOtherPaletteSizes :
    State.reset.cfg.legal ∧
    (∀ l ∈ [0, 31, 33, 511, 513], ({ State.reset with inLen := BitVec.ofNat 32 l }).inLen.toNat ∉ [32, 512]) ∧
    (∀ n ∈ [0, 15, 17, 255, 257], ({ State.reset with argA := BitVec.ofNat 32 n }).argA.toNat ∉ [16, 256]) ∧
    (∀ l ∈ [32, 512], ({ State.reset with inLen := BitVec.ofNat 32 l }).inLen.toNat ∈ [32, 512]) ∧
    (∀ n ∈ [16, 256], ({ State.reset with argA := BitVec.ofNat 32 n }).argA.toNat ∈ [16, 256]) := by decide

/-- Each error code occurs. -/
theorem witness_ErrorCodesComeOnlyFromTheirCommands : State.reset.cfg.legal ∧
    (nextOf (exec .tdec8 { State.reset with inLen := 32, argA := 1 })).code = .malformedBuffer ∧
    (nextOf (exec .tenc8 { State.reset with argA := 12 })).code = .invalidDimensions ∧
    (nextOf (exec .tenc4 te13)).code = .pixelIndexOutOfRange ∧
    (nextOf (exec .cenc State.reset)).code = .unsupportedPaletteSize ∧
    (nextOf (exec .tdec4 State.reset)).code = .invalidTilesPerRow ∧
    (nextOf (exec .tdec4 { State.reset with argA := 0x20000000 })).code = .capacityExceeded := by decide +kernel

theorem witness_FailedCommandChangesOnlyStatus : (nextOf (onCmdWrite 0x02 te13)).code ≠ .ok := by decide +kernel

theorem witness_SuccessfulCommandWritesOnlyItsOutput : td2.cfg.legal ∧ (nextOf (exec .tdec4 td2)).code = .ok ∧
    0 < (nextOf (exec .tdec4 td2)).resLen.toNat := by decide

/-- Two tiles per row and three tiles at 4 bpp: the last tile, its last even and odd pixels, and the padding tile. -/
def threeTiles4 : State :=
  { State.reset with inLen := 96, argA := 2, inMem := bytes 96 fun i => BitVec.ofNat 8 (i + 100) }

theorem witness_TileDecode4UnpacksNibbles :
    threeTiles4.cfg.legal ∧ threeTiles4.argA.toNat ≠ 0 ∧ threeTiles4.inLen.toNat % 32 = 0 ∧
    threeTiles4.inLen.toNat ≤ threeTiles4.cfg.inSize ∧ threeTiles4.argA.toNat * 8 ≤ 2 ^ 32 - 1 ∧
    threeTiles4.argA.toNat * 8 * ((threeTiles4.inLen.toNat / 32 + threeTiles4.argA.toNat - 1) / threeTiles4.argA.toNat * 8)
      ≤ threeTiles4.cfg.outSize ∧
    (15 / 8 * 2 + 7 / 8 < 96 / 32 ∧ (15 % 8 * 8 + 7 % 8) % 2 = 1) ∧ (15 / 8 * 2 + 6 / 8 < 96 / 32 ∧ (15 % 8 * 8 + 6 % 8) % 2 = 0) ∧
    96 / 32 ≤ 15 / 8 * 2 + 8 / 8 := by decide

theorem witness_TileDecode8MovesWholeBytes :
    td6.cfg.legal ∧ td6.argA.toNat ≠ 0 ∧ td6.inLen.toNat % 64 = 0 ∧ td6.inLen.toNat ≤ td6.cfg.inSize ∧
    td6.argA.toNat * 8 ≤ 2 ^ 32 - 1 ∧
    td6.argA.toNat * 8 * ((td6.inLen.toNat / 64 + td6.argA.toNat - 1) / td6.argA.toNat * 8) ≤ td6.cfg.outSize ∧
    15 / 8 * 2 + 7 / 8 < 192 / 64 ∧ 192 / 64 ≤ 15 / 8 * 2 + 15 / 8 := by decide

theorem witness_TileEncode4PacksNibbles :
    te3.cfg.legal ∧ te3.argA.toNat % 8 = 0 ∧ te3.argB.toNat % 8 = 0 ∧
    te3.argA.toNat * te3.argB.toNat ≤ te3.cfg.inSize ∧ te3.argA.toNat / 8 * (te3.argB.toNat / 8) * 32 ≤ te3.cfg.outSize ∧
    (∀ a, a < te3.argA.toNat * te3.argB.toNat → (inputByte te3 a).toNat ≤ 15) ∧
    0 < te3.argA.toNat / 8 * (te3.argB.toNat / 8) := by decide +kernel

theorem witness_TileEncode8MovesWholeBytes :
    te4.cfg.legal ∧ te4.argA.toNat % 8 = 0 ∧ te4.argB.toNat % 8 = 0 ∧
    te4.argA.toNat * te4.argB.toNat ≤ te4.cfg.inSize ∧ te4.argA.toNat / 8 * (te4.argB.toNat / 8) * 64 ≤ te4.cfg.outSize ∧
    1 < te4.argA.toNat / 8 * (te4.argB.toNat / 8) := by decide

/-- The whole chain at 4 bpp: the raster of TE-3, its encoding handed back, with the tiles per row of R132. -/
theorem witness_TileEncodeThenDecodeIsIdentity :
    te3.cfg.legal ∧ 8 ≤ te3.argA.toNat ∧ te3.argA.toNat % 8 = 0 ∧ te3.argB.toNat % 8 = 0 ∧
    (∀ a, a < te3.argA.toNat * te3.argB.toNat → (inputByte te3 a).toNat ≤ 15) ∧
    te3.argA.toNat * te3.argB.toNat ≤ te3.cfg.inSize ∧ te3.argA.toNat * te3.argB.toNat ≤ te3.cfg.outSize ∧
    (let t := nextOf (exec .tenc4 te3)
     let s' := handed t t.resLen 1 0
     s'.cfg = t.cfg ∧ (∀ a, a < t.resLen.toNat → s'.inMem.read a = t.outMem.read a) ∧ s'.inLen = t.resLen ∧
       s'.argA.toNat = te3.argA.toNat / 8) ∧
    (State.reset.argA.toNat = 0 ∧ State.reset.argA.toNat = State.reset.argA.toNat / 8) := by decide +kernel

/-- The whole chain with a padding tile: three 4 bpp tiles, two per row. -/
theorem witness_TileDecodeThenEncodeRestoresTheBuffer :
    threeTiles4.cfg.legal ∧ threeTiles4.argA.toNat ≠ 0 ∧ threeTiles4.inLen.toNat % tileBytes .bpp4 = 0 ∧
    threeTiles4.argA.toNat * 8 ≤ 2 ^ 32 - 1 ∧
    threeTiles4.argA.toNat * 8 *
      ((threeTiles4.inLen.toNat / tileBytes .bpp4 + threeTiles4.argA.toNat - 1) / threeTiles4.argA.toNat * 8) = 256 ∧
    256 ≤ threeTiles4.cfg.inSize ∧ 256 ≤ threeTiles4.cfg.outSize ∧
    (let t := nextOf (exec .tdec4 threeTiles4)
     let s' := handed t 0 t.resW t.resH
     s'.cfg = t.cfg ∧ (∀ a, a < t.resLen.toNat → s'.inMem.read a = t.outMem.read a) ∧ s'.argA = t.resW ∧
       s'.argB = t.resH) := by decide +kernel

theorem witness_TileDecode4NeverExceedsFifteen :
    td2.cfg.legal ∧ (let t := nextOf (exec .tdec4 td2)
      let s' := handed t 0 t.resW t.resH
      t.code = .ok ∧ 0 < t.resLen.toNat ∧ (∀ a, a < t.resLen.toNat → s'.inMem.read a = t.outMem.read a) ∧
        s'.argA = t.resW ∧ s'.argB = t.resH) := by decide +kernel

theorem witness_ColourDecodeWidensFiveBitChannels :
    cd8.cfg.legal ∧ cd8.inLen.toNat = 32 ∧ ({ cd8 with inLen := 512 }).inLen.toNat = 512 ∧
    (inputByte cd8 0).toNat + 256 * (inputByte cd8 1).toNat = 0x1234 := by decide

theorem witness_ColourEncodeNarrowsAndPacks :
    ce4.cfg.legal ∧ ce4.argA.toNat = 16 ∧ ({ ce4 with argA := 256 }).argA.toNat = 256 ∧
    (inputByte ce4 0).toNat / 8 + (inputByte ce4 1).toNat / 8 * 32 + (inputByte ce4 2).toNat / 8 * 1024 = 0x664C := by
  decide

theorem witness_ColourEncodeThenDecodeFloorsChannels :
    ce4.cfg.legal ∧ ce4.argA.toNat = 16 ∧
    (let t := nextOf (exec .cenc ce4)
     let s' := handed t t.resLen 0 0
     s'.cfg = t.cfg ∧ (∀ a, a < t.resLen.toNat → s'.inMem.read a = t.outMem.read a) ∧ s'.inLen = t.resLen) := by
  decide +kernel

theorem witness_ColourDecodeThenEncodeClearsBit15 :
    cd8.cfg.legal ∧ cd8.inLen.toNat = 32 ∧
    (let t := nextOf (exec .cdec cd8)
     let s' := handed t 0 t.resCount 0
     s'.cfg = t.cfg ∧ (∀ a, a < t.resLen.toNat → s'.inMem.read a = t.outMem.read a) ∧ s'.argA = t.resCount) := by
  decide +kernel

theorem witness_DecodedColoursAreMultiplesOfEight :
    cd8.cfg.legal ∧ (nextOf (exec .cdec cd8)).code = .ok ∧ 0 < (nextOf (exec .cdec cd8)).resLen.toNat := by
  decide +kernel

/-- Two states that agree on the inputs of a command and on nothing else. -/
def td2Other : State :=
  { td2 with
    code := .malformedBuffer, done := true, resLen := 8, outMem := [(0, 7)], draws := 5, readData := 1
    inMem := td2.inMem ++ [(32, 0xFF)] }

theorem witness_OutcomeDependsOnlyOnTheInputs :
    td2Other ≠ td2 ∧ td2Other.cfg = td2.cfg ∧ td2Other.inLen = td2.inLen ∧ td2Other.argA = td2.argA ∧
    td2Other.argB = td2.argB ∧ (∀ a, a < td2.inLen.toNat → inputByte td2Other a = inputByte td2 a) ∧
    decodeCmd 0x01 = .ok .tdec4 ∧ (nextOf (onCmdWrite 0x01 td2)).code = .ok := by decide +kernel

theorem witness_InvariantHoldsAfterReset : Config.legal ⟨768, 2 ^ 32 - 1⟩ ∧ Config.legal ⟨2 ^ 32 - 1, 768⟩ := by decide

/-- A state that meets the invariant and steps. -/
theorem witness_EveryStepKeepsTheInvariant :
    (State.resetWith ⟨768, 768⟩).Inv ∧ isNext (step (State.resetWith ⟨768, 768⟩)) = true := by
  refine ⟨⟨by decide, by decide, by decide, by decide, fun a h => absurd h (Nat.not_lt_zero a), by decide, by decide,
    by decide⟩, by decide⟩

theorem witness_AllowedHostAccessesNeverStop :
    (hosted [.memWrite .inMem 4092 4 (.imm 1), cmdWrite 0xFFFFFFFF, .reset, .regRead 0xFC 4]).hostAllowed := by
  unfold State.hostAllowed; decide

theorem witness_StepStopsOnlyOnUndefinedAccess :
    isNext (step (hosted [.regRead 0xFC 4])) = true ∧ isNext (step (hosted [.regRead 0x100 4])) = false := by decide

theorem witness_SizesStayAndEventsAreTakenInOrder :
    isNext (step (hosted [.reset, cmdWrite 1])) = true ∧ (hosted [.reset, cmdWrite 1]).pending.head? = some .reset := by decide

theorem witness_OnlyTheHostChangesInputs :
    (hosted [cmdWrite 0x02]).pending = cmdWrite 0x02 :: [] ∧ isNext (step (hosted [cmdWrite 0x02])) = true ∧
    cmdWrite 0x02 ≠ .reset ∧
    (∀ offset width data, cmdWrite 0x02 ≠ .memWrite .inMem offset width data) ∧
    (∀ data, cmdWrite 0x02 ≠ .regWrite 0x08 4 data) ∧ (∀ data, cmdWrite 0x02 ≠ .regWrite 0x0C 4 data) ∧
    (∀ data, cmdWrite 0x02 ≠ .regWrite 0x10 4 data) :=
  ⟨by decide, by decide, by decide, by simp [cmdWrite], by simp [cmdWrite, RegName.offset],
    by simp [cmdWrite, RegName.offset], by simp [cmdWrite, RegName.offset]⟩

theorem witness_OnlyCommandsChangeResults :
    isNext (step (hosted [.memWrite .inMem 0 4 (.imm 5)])) = true ∧
    HostEvent.memWrite .inMem 0 4 (.imm 5) ≠ .reset ∧
    (∀ data, HostEvent.memWrite .inMem 0 4 (.imm 5) ≠ .regWrite 0x00 4 data) ∧
    (∀ offset width data, HostEvent.memWrite .inMem 0 4 (.imm 5) ≠ .memWrite .outMem offset width data) :=
  ⟨by decide, by decide, by simp, by simp⟩

theorem witness_CommandPseudoInstructionsRunTheirCommand :
    (hosted (Pseudo.tdec .bpp8 2 192).events).pending = (Pseudo.tdec .bpp8 2 192).events ++ [] ∧
    (hosted (Pseudo.tenc .bpp4 8 16).events).pending = (Pseudo.tenc .bpp4 8 16).events ++ [] ∧
    (hosted (Pseudo.cdec 32).events).pending = (Pseudo.cdec 32).events ++ [] ∧
    (hosted (Pseudo.cenc 16).events).pending = (Pseudo.cenc 16).events ++ [] := by decide

theorem witness_CopyMovesOutputToInput :
    let s := { hosted (Pseudo.copy 2).events with outMem := [(0, 5), (1, 6)] }
    s.pending = (Pseudo.copy 2).events ++ [] ∧ 2 ≤ s.cfg.inSize ∧ 2 ≤ s.cfg.outSize ∧
    (∀ a, a < 2 → s.outMem.read a ≠ none) := by decide

theorem witness_FillStoresItsBytes :
    (hosted (Pseudo.fill .outMem 4094 [1, 2]).events).pending = (Pseudo.fill .outMem 4094 [1, 2]).events ++ [] ∧
    4094 + [1, 2].length ≤ Space.outMem.size State.reset.cfg := by decide

end Sys2Proof.Tests
end

/-! The command words that are legal (30_encoding.md R80–R84). -/
section
namespace Sys2Proof.Proofs

/-- R84's table: the words of the six commands, the two colour commands with either DEPTH. -/
def legalCommandWords : List Word :=
  [0x00000001, 0x00000011, 0x00000002, 0x00000012, 0x00000003, 0x00000013, 0x00000004, 0x00000014]

/-- Legal fields leave OP four values and DEPTH two, which makes the eight words. -/
theorem wordOf_mem_legalCommandWords {f : CmdFields} (h : f.legal = true) : wordOf f ∈ legalCommandWords := by
  obtain ⟨op, rsv0, depth, rsv1⟩ := f
  simp only [CmdFields.legal, Bool.and_eq_true, Bool.or_eq_true, beq_iff_eq] at h
  obtain ⟨⟨rfl, rfl⟩, hop⟩ := h
  have hdepth : depth = 0 ∨ depth = 1 := by revert depth; decide
  obtain ((rfl | rfl) | rfl) | rfl := hop <;> obtain rfl | rfl := hdepth <;> decide

theorem mem_legalCommandWords_of_legal {w : Word} (h : (fieldsOf w).legal = true) : w ∈ legalCommandWords := by
  rw [← wordOf_fieldsOf w]
  exact wordOf_mem_legalCommandWords h

/-- The decoder answers a command only on legal fields: the reserved bits are tested first (R83), and OP must then be
one of R81's four. -/
theorem fieldsOf_legal_of_decodeCmd_ok {w : Word} {i : Instr} (h : decodeCmd w = .ok i) :
    (fieldsOf w).legal = true := by
  simp only [decodeCmd] at h
  split at h
  case isTrue => cases h
  case isFalse hrsv =>
    obtain ⟨hrsv0, hrsv1⟩ : (fieldsOf w).rsv0 = 0 ∧ (fieldsOf w).rsv1 = 0 := by simpa using hrsv
    have hop : (fieldsOf w).op = 1 ∨ (fieldsOf w).op = 2 ∨ (fieldsOf w).op = 3 ∨ (fieldsOf w).op = 4 := by
      by_contra hno
      push Not at hno
      obtain ⟨h1, h2, h3, h4⟩ := hno
      simp only [if_neg h1, if_neg h2, if_neg h3, if_neg h4, reduceCtorEq] at h
    simpa [CmdFields.legal, hrsv0, hrsv1, or_assoc] using hop

theorem decodeCmd_error_of_not_mem {w : Word} (h : w ∉ legalCommandWords) : ∃ e, decodeCmd w = .error e := by
  cases hw : decodeCmd w with
  | error e => exact ⟨e, rfl⟩
  | ok i => exact absurd (mem_legalCommandWords_of_legal (fieldsOf_legal_of_decodeCmd_ok hw)) h

/-- Settles O2: the eight words are evaluated, and every other word has fields the decoder refuses. -/
theorem exactlyEightCommandWordsAreLegal : Obligations.ExactlyEightCommandWordsAreLegal := by
  intro w
  refine ⟨?tdec4, ?tdec8, ?tenc4, ?tenc8, ?cdec, ?cenc, decodeCmd_error_of_not_mem⟩
  case tdec4 => rintro rfl; decide
  case tdec8 => rintro rfl; decide
  case tenc4 => rintro rfl; decide
  case tenc8 => rintro rfl; decide
  case cdec => rintro (rfl | rfl) <;> decide
  case cenc => rintro (rfl | rfl) <;> decide

end Sys2Proof.Proofs
end

/-! CMD writes (40_command.md R100–R106): the step that carries one, its outcome, and what a command's result depends
on. -/
section
namespace Sys2Proof.Proofs

open Sys2Proof.Machine Sys2Proof.Certificates

/-! The step that carries a command word (R100). -/

/-- Taking an event leaves the value that a host write carries. -/
@[simp] theorem taken_dataValue (s : State) (rest : List HostEvent) (data : HostData) :
    (taken s rest).dataValue data = s.dataValue data := by
  cases data <;> rfl

/-- R23, R100: a 32-bit write to CMD runs its data as a command word, in the same step. -/
theorem step_cmdWrite {s : State} {data : HostData} {rest : List HostEvent}
    (h : s.pending = .regWrite 0x00 4 data :: rest) :
    step s = onCmdWrite (s.dataValue data) (taken s rest) := by
  rw [step_event h, ← taken_dataValue s rest]
  exact hostRegWrite_cmd (taken s rest) rfl

theorem step_withFetchWord (s : State) (w : Nat) :
    step (s.withFetchWord 32 w) = onCmdWrite (BitVec.ofNat 32 (w % 2 ^ 32)) s :=
  step_cmdWrite (s := s.withFetchWord 32 w) rfl

theorem decodeCmd_of_decodeTableWord {nbits w : Nat} {i : Instr} (h : decodeTableWord nbits w = some i) :
    decodeCmd (BitVec.ofNat 32 (w % 2 ^ nbits)) = .ok i := by
  unfold decodeTableWord at h
  split at h
  case h_1 j hj => cases h; exact hj
  case h_2 => cases h

/-- Settles O6: the step of a CMD write runs the word, and a word that decodes runs its command. -/
theorem stepRunsDecodedCommand : Obligations.StepRunsDecodedCommand := by
  refine ⟨fun s data rest i hp hd => ?_, fun s w i hd => ?_⟩
  · rw [step_cmdWrite hp, onCmdWrite_ok hd]
  · rw [step_withFetchWord, onCmdWrite_ok (decodeCmd_of_decodeTableWord hd)]

/-- Settles O8: the step of a CMD write is `onCmdWrite`, which always completes. -/
theorem everyCommandWordCompletesInOneStep : Obligations.EveryCommandWordCompletesInOneStep := by
  intro s data rest hp
  obtain ⟨t, ht, hcfg, hlen, hA, hB, hin, hpend, hread, hdone⟩ :=
    onCmdWrite_next (s.dataValue data) (taken s rest)
  exact ⟨t, by rw [step_cmdWrite hp, ht], hdone, hcfg, hlen, hA, hB, fun a => by rw [hin], hpend, hread⟩

/-! The two ends of a CMD write (R102, R103). -/

/-- Everything a CMD write can do: report an error and leave the rest, or commit the output of a legal command. -/
theorem onCmdWrite_cases {v : Word} {s t : State} (h : onCmdWrite v s = .next t) :
    (∃ c n, c ≠ .ok ∧ t = { s with code := c, done := true, draws := n }) ∨
    (∃ i out len w hgt n, checkOf i s.snapshot = none ∧ computeOf i s.snapshot s.inb = .ok out len w hgt n ∧
      t = (s.commitOk out len w hgt n).nextDraw) := by
  cases hd : decodeCmd v with
  | ok i =>
    rw [onCmdWrite_ok hd] at h
    exact (exec_cases h).imp_right fun hok => ⟨i, hok⟩
  | error e =>
    rw [onCmdWrite_illegal hd] at h
    cases h
    exact .inl ⟨.illegalCommand, s.draws, by decide, rfl⟩

/-- Settles O24: of the two ends of a CMD write, only the one that reports an error has a CODE other than Ok. -/
theorem failedCommandChangesOnlyStatus : Obligations.FailedCommandChangesOnlyStatus := by
  intro v s
  obtain ⟨t, ht, -, -, -, -, -, -, -, hdone⟩ := onCmdWrite_next v s
  refine ⟨t, ht, hdone, fun hcode => ?_⟩
  obtain ⟨c, n, -, rfl⟩ | ⟨i, out, len, w, hgt, n, -, -, rfl⟩ := onCmdWrite_cases ht
  · rfl
  · exact absurd rfl hcode

/-! What a command's outcome depends on (R105). -/

/-- Two answers of `run` with the same outcome: the same error, or the same registers and output bytes. -/
def sameResult : CmdResult → CmdResult → Prop
  | .fail c, .fail c' => c' = c
  | .ok out len w hgt n, .ok out' len' w' hgt' n' =>
    len' = len ∧ w' = w ∧ hgt' = hgt ∧ n' = n ∧ ∀ a, a < len → out' a = out a
  | _, _ => False

/-- Equal outcomes of two commands, as R105 counts them: STATUS, and after Ok the RES registers and the output. -/
def sameOutcome (t t' : State) : Prop :=
  t'.code = t.code ∧ t'.done = t.done ∧
    (t.code = .ok → t'.resLen = t.resLen ∧ t'.resW = t.resW ∧ t'.resH = t.resH ∧ t'.resCount = t.resCount ∧
      ∀ a, a < t.resLen.toNat → t'.outMem.read a = t.outMem.read a)

theorem sameOutcome_commitFail (s s' : State) {c : StatusCode} (hc : c ≠ .ok) :
    sameOutcome (s.commitFail c) (s'.commitFail c) :=
  ⟨rfl, rfl, fun h => absurd h hc⟩

theorem sameOutcome_commitOk (s s' : State) {out out' : Nat → Byte} {len : Nat} (w hgt n : Nat)
    (hout : ∀ a, a < len → out' a = out a) :
    sameOutcome (s.commitOk out len w hgt n) (s'.commitOk out' len w hgt n) := by
  refine ⟨rfl, rfl, fun _ => ⟨rfl, rfl, rfl, rfl, fun a ha => ?_⟩⟩
  have hlt : a < len := lt_of_lt_of_le ha (zext32_toNat_le len)
  simp only [State.commitOk_outMem, Memory.read_writeFirst, if_pos hlt, hout a hlt]

section
variable {s : Snapshot} {f g : Nat → Byte}

/-- A TILE_DECODE that passes its checks has the bytes below IN_LEN as its only input (R129, R130). -/
theorem sameResult_tileDecodeCompute (d : Depth) (e : ∀ a, a < s.inLen → g a = f a) :
    sameResult (tileDecodeCompute d s f) (tileDecodeCompute d s g) :=
  ⟨rfl, rfl, rfl, rfl, fun _ _ => decodedPixel_congr e _ _⟩

/-- A TILE_ENCODE that passes its checks has the raster as its only input (R131). -/
theorem sameResult_tileEncodeCompute {d : Depth} (hc : tileEncodeCheck d s = none)
    (e : ∀ a, a < s.argA * s.argB → g a = f a) :
    sameResult (tileEncodeCompute d s f) (tileEncodeCompute d s g) := by
  obtain ⟨hW, hH, -, -⟩ := tileEncodeCheck_none.1 hc
  have hrange : pixelOutOfRange d s.argA s.argB g = pixelOutOfRange d s.argA s.argB f := pixelOutOfRange_congr e
  simp only [tileEncodeCompute, hrange]
  cases pixelOutOfRange d s.argA s.argB f with
  | true => exact rfl
  | false =>
    exact ⟨rfl, rfl, rfl, rfl, fun a ha =>
      packTileByte_congr hW hH ((Nat.div_lt_iff_lt_mul (bytesPerTile_pos d)).2 ha)
        (Nat.mod_lt a (bytesPerTile_pos d)) e⟩

/-- A COLOR_DECODE has the bytes below IN_LEN as its only input (R170). -/
theorem sameResult_colorDecodeCompute (e : ∀ a, a < s.inLen → g a = f a) :
    sameResult (colorDecodeCompute s f) (colorDecodeCompute s g) := by
  refine ⟨rfl, rfl, rfl, rfl, fun a ha => ?_⟩
  simp only [entryWord, e (2 * (a / 3)) (by omega), e (2 * (a / 3) + 1) (by omega)]

/-- A COLOR_ENCODE has the first ARG_A entries of the ColorTable as its only input (R171). -/
theorem sameResult_colorEncodeCompute (e : ∀ a, a < 3 * s.argA → g a = f a) :
    sameResult (colorEncodeCompute s f) (colorEncodeCompute s g) := by
  refine ⟨rfl, rfl, rfl, rfl, fun a ha => ?_⟩
  simp only [encodedWord, e (3 * (a / 2)) (by omega), e (3 * (a / 2) + 1) (by omega),
    e (3 * (a / 2) + 2) (by omega)]

/-- R55, R105: a command that passes its checks has the bytes below `inputLength` as its only input. -/
theorem sameResult_computeOf {i : Instr} (hc : checkOf i s = none)
    (e : ∀ a, a < inputLength i s → g a = f a) : sameResult (computeOf i s f) (computeOf i s g) := by
  cases i with
  | tdec4 => exact sameResult_tileDecodeCompute .bpp4 e
  | tdec8 => exact sameResult_tileDecodeCompute .bpp8 e
  | tenc4 => exact sameResult_tileEncodeCompute hc e
  | tenc8 => exact sameResult_tileEncodeCompute hc e
  | cdec => exact sameResult_colorDecodeCompute e
  | cenc => exact sameResult_colorEncodeCompute e
end

/-- Two states with equal snapshots and equal input bytes run a command to equal outcomes. -/
theorem exec_sameOutcome {i : Instr} {s s' : State} (hsnap : s'.snapshot = s.snapshot)
    (e : ∀ a, a < inputLength i s.snapshot → s'.inb a = s.inb a) :
    ∃ t t', exec i s = .next t ∧ exec i s' = .next t' ∧ sameOutcome t t' := by
  simp only [exec_eq_runCommand, runCommand, hsnap]
  cases hc : checkOf i s.snapshot with
  | some c =>
    exact ⟨_, _, rfl, rfl, sameOutcome_commitFail s s' fun hk => checkOf_ne_ok i _ (hk ▸ hc)⟩
  | none =>
    refine ⟨_, _, rfl, rfl, ?_⟩
    have hres := sameResult_computeOf hc e
    cases hr : computeOf i s.snapshot s.inb <;> cases hr' : computeOf i s.snapshot s'.inb <;>
      rw [hr, hr'] at hres
    case fail.fail c c' =>
      have hne : c ≠ .ok := by rw [(computeOf_fail hr).2]; decide
      obtain rfl : c' = c := hres
      exact sameOutcome_commitFail s s' hne
    case ok.ok out len w hgt n out' len' w' hgt' n' =>
      obtain ⟨rfl, rfl, rfl, rfl, hout⟩ := hres
      exact sameOutcome_commitOk s s' _ _ _ hout
    case fail.ok => exact hres.elim
    case ok.fail => exact hres.elim

/-- The statements' input byte is the one the model's commands compute with. -/
theorem inb_eq_inputByte (s : State) (a : Nat) : s.inb a = inputByte s a := by
  unfold inputByte
  split
  case h_1 b hb => exact State.inb_written hb
  case h_2 hn => exact Memory.readByte_unwritten hn _

/-- Settles O38: an illegal word fails in both states, and a legal one runs one command on equal inputs. -/
theorem outcomeDependsOnlyOnTheInputs : Obligations.OutcomeDependsOnlyOnTheInputs := by
  intro v s s' hcfg hlen hA hB hin
  cases hd : decodeCmd v with
  | error e =>
    exact ⟨_, _, onCmdWrite_illegal hd s, onCmdWrite_illegal hd s', sameOutcome_commitFail s s' (by decide)⟩
  | ok i =>
    have hsnap : s'.snapshot = s.snapshot := by simp only [State.snapshot, hcfg, hlen, hA, hB]
    have hinb : ∀ a, a < inputLength i s.snapshot → s'.inb a = s.inb a := by
      intro a ha
      rw [inb_eq_inputByte, inb_eq_inputByte]
      refine hin i hd a ?_
      cases i <;> exact ha
    simp only [onCmdWrite_ok hd]
    exact exec_sameOutcome hsnap hinb

end Sys2Proof.Proofs
end

/-! The invariant of the machine and safe runs (Sys2Proof/Safety.lean). -/
section
namespace Sys2Proof.Proofs

open Sys2Proof.Machine Sys2Proof.Certificates

/-! Each operation on the state keeps the invariant. -/

section
variable {s : State} (hs : s.Inv)
include hs

theorem inv_taken (rest : List HostEvent) : (taken s rest).Inv := { hs with }

theorem inv_setReadData (v : Word) : (s.setReadData v).Inv := { hs with }

theorem inv_nextDraw : s.nextDraw.Inv := { hs with }

theorem inv_writeReg (r : RegName) (v : Word) : (s.writeReg r v).Inv := by
  cases r <;> exact { hs with }

/-- A host write inside a space keeps its memory canonical, and a byte of OUT, once written, stays written (R37). -/
theorem inv_memWrite {space : Space} {off width : Nat} (hfit : off + width ≤ space.size s.cfg) (v : Word) :
    (s.setMem space ((s.mem space).writeLE off width v)).Inv := by
  cases space with
  | inMem => exact { hs with inMem := Memory.wf_writeLE hs.inMem hfit v }
  | outMem =>
    refine { hs with outMem := Memory.wf_writeLE hs.outMem hfit v, resWritten := fun a ha => ?_ }
    show (s.outMem.writeLE off width v).read a ≠ none
    rw [Memory.read_writeLE]
    split
    · simp
    · exact hs.resWritten a ha

/-- R230: a reset leaves no result and nothing written, at the same sizes. -/
theorem inv_resetBlock : s.resetBlock.Inv where
  sizes := hs.sizes
  inMem := ⟨List.Pairwise.nil, by simp⟩
  outMem := ⟨List.Pairwise.nil, by simp⟩
  resFits := by simp
  resWritten := by simp
  resW := by simp
  resH := by simp
  fresh := by simp

/-- R103: an error sets DONE and leaves what the invariant says of the rest. -/
theorem inv_failed (c : StatusCode) (n : Nat) : State.Inv { s with code := c, done := true, draws := n } :=
  { hs with fresh := nofun }

/-- R102, R104: a committed output fits OUT and is all written, and its registers hold the numbers committed. -/
theorem inv_commitOk {i : Instr} {out : Nat → Byte} {len w hgt n : Nat} (hc : checkOf i s.snapshot = none)
    (hr : computeOf i s.snapshot s.inb = .ok out len w hgt n) : (s.commitOk out len w hgt n).Inv := by
  obtain ⟨hfit, hlen, hw, hh, hw8, hh8⟩ := commit_fits hs.sizes hc hr
  exact {
    sizes := hs.sizes
    inMem := hs.inMem
    outMem := Memory.wf_writeFirst hs.outMem hfit out
    resFits := by rwa [State.commitOk_resLen, zext32_toNat hlen]
    resWritten := fun a ha => by
      rw [State.commitOk_resLen, zext32_toNat hlen] at ha
      simp [Memory.read_writeFirst, ha]
    resW := by rwa [State.commitOk_resW, zext32_toNat hw]
    resH := by rwa [State.commitOk_resH, zext32_toNat hh]
    fresh := nofun }

/-- Every CMD write keeps the invariant, whichever of its two ends it has. -/
theorem inv_onCmdWrite {v : Word} {t : State} (h : onCmdWrite v s = .next t) : t.Inv := by
  obtain ⟨c, n, -, rfl⟩ | ⟨i, out, len, w, hgt, n, hc, hr, rfl⟩ := onCmdWrite_cases h
  · exact inv_failed hs c n
  · exact inv_nextDraw (inv_commitOk hs hc hr)

theorem inv_hostEvent {e : HostEvent} {t : State} (h : hostEvent e s = .next t) : t.Inv := by
  obtain ⟨off, width, -, rfl⟩ | ⟨data, -, hcmd⟩ | ⟨r, data, -, -, rfl⟩ | ⟨off, width, data, -, -, rfl⟩ |
    ⟨space, off, width, -, -, rfl⟩ | ⟨space, off, width, data, ⟨-, -, hfit⟩, -, rfl⟩ | ⟨-, rfl⟩ :=
      hostEvent_cases h
  · exact inv_setReadData hs _
  · exact inv_onCmdWrite hs hcmd
  · exact inv_writeReg hs r _
  · exact hs
  · exact inv_nextDraw (inv_setReadData hs _)
  · exact inv_memWrite hs hfit _
  · exact inv_resetBlock hs
end

/-- Settles O40: a step is idle or one host event, and each kind of event keeps the invariant. -/
theorem everyStepKeepsTheInvariant : Obligations.EveryStepKeepsTheInvariant := by
  intro s t hs hstep
  obtain ⟨-, rfl⟩ | ⟨e, rest, -, he⟩ := step_cases hstep
  · exact hs
  · exact inv_hostEvent (inv_taken hs rest) he

/-! Runs whose host accesses all have an effect. -/

/-- No host event changes the sizes or the events that come after it. -/
theorem hostEvent_cfg_pending {e : HostEvent} {s t : State} (h : hostEvent e s = .next t) :
    t.cfg = s.cfg ∧ t.pending = s.pending := by
  obtain ⟨off, width, -, rfl⟩ | ⟨data, -, hcmd⟩ | ⟨r, data, -, -, rfl⟩ | ⟨off, width, data, -, -, rfl⟩ |
    ⟨space, off, width, -, -, rfl⟩ | ⟨space, off, width, data, -, -, rfl⟩ | ⟨-, rfl⟩ := hostEvent_cases h
  case inr.inl =>
    obtain ⟨u, hu, hcfg, -, -, -, -, hpend, -, -⟩ := onCmdWrite_next (s.dataValue data) s
    obtain rfl : u = t := by simpa [hu] using hcmd
    exact ⟨hcfg, hpend⟩
  all_goals simp

/-- Each step keeps the sizes and takes the first of the host's events. -/
theorem step_cfg_pending {s t : State} (h : step s = .next t) : t.cfg = s.cfg ∧ t.pending = s.pending.tail := by
  obtain ⟨hp, rfl⟩ | ⟨e, rest, hp, he⟩ := step_cases h
  · simp [hp]
  · simpa [hp] using hostEvent_cfg_pending he

theorem hostAllowed_step {s t : State} (hs : s.hostAllowed) (h : step s = .next t) : t.hostAllowed := by
  obtain ⟨hcfg, hpend⟩ := step_cfg_pending h
  intro e he
  rw [hcfg]
  exact hs e (List.mem_of_mem_tail (hpend ▸ he))

theorem step_next_of_hostAllowed {s : State} (hs : s.hostAllowed) : ∃ t, step s = .next t := by
  cases hp : s.pending with
  | nil => exact ⟨s, step_idle hp⟩
  | cons e rest =>
    rw [step_event hp]
    exact hostEvent_allowed (hs e (by simp [hp]))

/-- Settles O41, by induction on the number of steps: an allowed state steps, and to an allowed state. -/
theorem allowedHostAccessesNeverStop : Obligations.AllowedHostAccessesNeverStop := by
  intro s n hs
  induction n generalizing s with
  | zero => exact ⟨s, run_zero s⟩
  | succ n ih =>
    obtain ⟨m, hstep⟩ := step_next_of_hostAllowed hs
    obtain ⟨t, ht⟩ := ih m (hostAllowed_step hs hstep)
    exact ⟨t, by rw [run_succ_of_next hstep, ht]⟩

end Sys2Proof.Proofs
end

/-! The tile permutation and the packing, there and back (41_tile_codec.md R120–R129). -/
section
namespace Sys2Proof.Proofs

open Sys2Proof.Machine

/-! A row-major array, read at the coordinates of an entry (R121), and a tile-major one (R120). -/

theorem apply_rowMajor {α : Type} {g : Nat → α} {W H x y : Nat} (f : Nat → Nat → α)
    (h : ∀ a, a < W * H → g a = f (a % W) (a / W)) (hx : x < W) (hy : y < H) : g (y * W + x) = f x y := by
  rw [h _ (offset_lt hx hy), offset_mod y hx, offset_div y hx]

theorem apply_tileMajor {α : Type} {g : Nat → α} {n size t k : Nat} (f : Nat → Nat → α)
    (h : ∀ a, a < n * size → g a = f (a / size) (a % size)) (ht : t < n) (hk : k < size) :
    g (t * size + k) = f t k :=
  apply_rowMajor (fun k t => f t k) (fun a ha => h a (by rwa [Nat.mul_comm])) hk ht

/-! Decoded pixels (R125, R129). -/

section
variable {d : Depth} {T tc x y : Nat} {buffer : Nat → Byte}

theorem decodedPixel_padding (h : tc ≤ tileAt T x y) : decodedPixel d T tc buffer x y = 0 := if_pos h

theorem decodedPixel_of_lt (h : tileAt T x y < tc) :
    decodedPixel d T tc buffer x y = unpackPixel d buffer (tileAt T x y) (pixelInTile x y) :=
  if_neg (Nat.not_le.2 h)
end

/-- R134: a pixel decoded at 4 bpp is 0 or a nibble. -/
theorem decodedPixel_bpp4_le (T tc : Nat) (buffer : Nat → Byte) (x y : Nat) :
    (decodedPixel .bpp4 T tc buffer x y).toNat ≤ 15 := by
  unfold decodedPixel
  split
  · exact Nat.zero_le 15
  · exact pixel4_le _ _

/-- R125: the left pixel of a byte is its low nibble. -/
theorem pixel4_of_even (b : Byte) {p : Nat} (hp : p % 2 = 0) : pixel4 b p = BitVec.ofNat 8 (b.toNat % 16) := by
  have hb := pixel4_toNat b p
  rw [if_pos hp] at hb
  rw [← hb, BitVec.ofNat_toNat, BitVec.setWidth_eq]

/-- R125: the right pixel of a byte is its high nibble. -/
theorem pixel4_of_odd (b : Byte) {p : Nat} (hp : p % 2 = 1) : pixel4 b p = BitVec.ofNat 8 (b.toNat / 16) := by
  have hb := pixel4_toNat b p
  rw [if_neg (by omega)] at hb
  rw [← hb, BitVec.ofNat_toNat, BitVec.setWidth_eq]

/-! Packing a raster and unpacking its tiles (R132). `f` is the raster, `g` the bytes of its tiles. -/

/-- R122, R123: the tile permutation puts raster pixel (x, y) at the place that decoding takes it from. -/
theorem tilePixel_tileAt {W x : Nat} (hW : W % 8 = 0) (hx : x < W) (f : Nat → Byte) (y : Nat) :
    tilePixel W f (tileAt (W / 8) x y) (pixelInTile x y) = f (y * W + x) := by
  have hx8 : x < W / 8 * 8 := by omega
  rw [tilePixel, rasterY_tileAt y hx8, rasterX_tileAt y hx8]

/-- R125, R126: unpacking undoes packing, pixel by pixel, where the pixel fits the depth. -/
theorem unpackPixel_of_packed {d : Depth} {W t p : Nat} {f g : Nat → Byte} (hp : p < 64)
    (hfit : d = .bpp4 → (tilePixel W f t p).toNat ≤ 15)
    (hg : ∀ k, k < bytesPerTile d → g (t * bytesPerTile d + k) = packTileByte d W f t k) :
    unpackPixel d g t p = tilePixel W f t p := by
  cases d with
  | bpp8 => exact hg p hp
  | bpp4 =>
    have hk : p / 2 < 32 := by omega
    calc pixel4 (g (t * 32 + p / 2)) p
      _ = pixel4 (pack4 (tilePixel W f t) (p / 2)) p := congrArg (pixel4 · p) (hg (p / 2) hk)
      _ = tilePixel W f t p := pixel4_pack4 _ _ (hfit rfl)

/-- R132 on the bytes: decoding the tiles of a raster gives each of its pixels back. -/
theorem decodedPixel_of_encoded {d : Depth} {W H x y : Nat} {f g : Nat → Byte} (hW : W % 8 = 0) (hH : H % 8 = 0)
    (hfit : d = .bpp4 → ∀ a, a < W * H → (f a).toNat ≤ 15)
    (hg : ∀ a, a < rasterTiles W H * bytesPerTile d →
      g a = packTileByte d W f (a / bytesPerTile d) (a % bytesPerTile d))
    (hx : x < W) (hy : y < H) :
    decodedPixel d (W / 8) (rasterTiles W H) g x y = f (y * W + x) := by
  have ht : tileAt (W / 8) x y < rasterTiles W H := tileAt_lt (by omega) (by omega)
  have hp : pixelInTile x y < 64 := pixelInTile_lt x y
  rw [decodedPixel_of_lt ht,
    unpackPixel_of_packed hp (fun hd => hfit hd _ (tile_offset_lt hW hH ht hp))
      (fun k hk => apply_tileMajor (packTileByte d W f) hg ht hk),
    tilePixel_tileAt hW hx]

/-! Unpacking a buffer and packing its raster (R133). `f` is the buffer, `g` the raster. -/

/-- R122, R123: pixel `p` of tile `t` of a decoded raster, in a grid of `T` × `R` tiles. -/
theorem tilePixel_of_decoded {d : Depth} {T R tc t p : Nat} {f g : Nat → Byte}
    (hg : ∀ a, a < T * 8 * (R * 8) → g a = decodedPixel d T tc f (a % (T * 8)) (a / (T * 8)))
    (ht : t < T * R) (hp : p < 64) :
    tilePixel (T * 8) g t p = if tc ≤ t then 0 else unpackPixel d f t p := by
  have hx : rasterX T t p < T * 8 := rasterX_lt (Nat.pos_of_ne_zero fun e => by simp [e] at ht) t p
  rw [tilePixel, Nat.mul_div_cancel T (by decide), apply_rowMajor (decodedPixel d T tc f) hg hx (rasterY_lt ht hp),
    decodedPixel, tileAt_raster T t p hp, pixelInTile_raster T t p hp]

/-- R125, R126: packing undoes unpacking, byte by byte. -/
theorem packTileByte_of_unpacked {d : Depth} {W t k : Nat} {f g : Nat → Byte} (hk : k < bytesPerTile d)
    (hg : ∀ p, p < 64 → tilePixel W g t p = unpackPixel d f t p) :
    packTileByte d W g t k = f (t * bytesPerTile d + k) := by
  cases d with
  | bpp8 => exact hg k hk
  | bpp4 =>
    have hk : k < 32 := hk
    have e0 : 2 * k / 2 = k := by omega
    have e1 : (2 * k + 1) / 2 = k := by omega
    refine pack4_pixel4 (f (t * 32 + k)) k ?_ ?_
    · rw [hg _ (by omega), unpackPixel, e0]
    · rw [hg _ (by omega), unpackPixel, e1]

/-- A tile whose pixels are all 0 packs to zero bytes, at either depth. -/
theorem packTileByte_of_zero {d : Depth} {W t k : Nat} {g : Nat → Byte} (hk : k < bytesPerTile d)
    (hg : ∀ p, p < 64 → tilePixel W g t p = 0) : packTileByte d W g t k = 0 := by
  cases d with
  | bpp8 => exact hg k hk
  | bpp4 =>
    have hk : k < 32 := hk
    simp only [packTileByte, pack4, hg (2 * k) (by omega), hg (2 * k + 1) (by omega)]
    decide

/-- R133 on the bytes: encoding a decoded raster gives the bytes of the buffer's `tc` tiles back, and 0 for the padding
tiles. -/
theorem packTileByte_of_decoded {d : Depth} {T R tc a : Nat} {f g : Nat → Byte}
    (hg : ∀ a, a < T * 8 * (R * 8) → g a = decodedPixel d T tc f (a % (T * 8)) (a / (T * 8)))
    (ha : a < T * R * bytesPerTile d) :
    packTileByte d (T * 8) g (a / bytesPerTile d) (a % bytesPerTile d) =
      if a < tc * bytesPerTile d then f a else 0 := by
  have hpos : 0 < bytesPerTile d := bytesPerTile_pos d
  have ht : a / bytesPerTile d < T * R := (Nat.div_lt_iff_lt_mul hpos).2 ha
  have hk : a % bytesPerTile d < bytesPerTile d := Nat.mod_lt a hpos
  split
  case isTrue h =>
    have htc : ¬ tc ≤ a / bytesPerTile d := Nat.not_le.2 ((Nat.div_lt_iff_lt_mul hpos).2 h)
    rw [packTileByte_of_unpacked hk fun p hp => by rw [tilePixel_of_decoded hg ht hp, if_neg htc], offset_eq]
  case isFalse h =>
    have htc : tc ≤ a / bytesPerTile d := (Nat.le_div_iff_mul_le hpos).2 (Nat.not_lt.1 h)
    exact packTileByte_of_zero hk fun p hp => by rw [tilePixel_of_decoded hg ht hp, if_pos htc]

/-! Sizes (R120, R121, R129). -/

theorem rasterTiles_mul_bytesPerTile_le (d : Depth) {W H : Nat} (hW : W % 8 = 0) (hH : H % 8 = 0) :
    rasterTiles W H * bytesPerTile d ≤ W * H :=
  rasterTiles_mul hW hH ▸ Nat.mul_le_mul_left _ (bytesPerTile_le d)

theorem tileCountOf_tiles (d : Depth) (n : Nat) : tileCountOf d (n * bytesPerTile d) = n :=
  Nat.mul_div_cancel n (bytesPerTile_pos d)

theorem tileCountOf_mul {d : Depth} {L : Nat} (hL : L % bytesPerTile d = 0) : tileCountOf d L * bytesPerTile d = L :=
  Nat.div_mul_cancel (Nat.dvd_of_mod_eq_zero hL)

/-- R129: a full grid of `T` × `R` tiles has `R` rows. -/
theorem ceilDiv_grid {T : Nat} (hT : 0 < T) (R : Nat) : ceilDiv (T * R) T = R := by
  refine Nat.eq_of_mul_eq_mul_right hT ?_
  rw [ceilDiv_mul _ hT, if_pos (Nat.mul_mod_right T R), Nat.mul_comm]

/-- R132: decoding the tiles of a raster with `W / 8` tiles per row gives the raster's height. -/
theorem decodeHeight_encoded (d : Depth) {W H : Nat} (hW : 8 ≤ W) (hH : H % 8 = 0) :
    decodeHeight d (rasterTiles W H * bytesPerTile d) (W / 8) = H := by
  rw [decodeHeight, tileCountOf_tiles, rasterTiles, ceilDiv_grid (by omega), Nat.div_mul_cancel]
  exact Nat.dvd_of_mod_eq_zero hH

/-- R133: the tiles of a decoded raster are those of its grid. -/
theorem rasterTiles_decoded (d : Depth) (L T : Nat) :
    rasterTiles (T * 8) (decodeHeight d L T) = T * ceilDiv (tileCountOf d L) T := by
  rw [rasterTiles, decodeHeight, Nat.mul_div_cancel _ (by decide), Nat.mul_div_cancel _ (by decide)]

/-- R133: the bytes of a re-encoded buffer are its own and those of the padding tiles. -/
theorem grid_bytes {d : Depth} {L T : Nat} (hT : 0 < T) (hL : L % bytesPerTile d = 0) :
    T * ceilDiv (tileCountOf d L) T * bytesPerTile d =
      if tileCountOf d L % T = 0 then L else L + (T - tileCountOf d L % T) * bytesPerTile d := by
  rw [Nat.mul_comm T, ceilDiv_mul _ hT]
  split
  · exact tileCountOf_mul hL
  · rw [Nat.add_mul, tileCountOf_mul hL]

end Sys2Proof.Proofs
end

/-! What a command that succeeds leaves behind, in the statements' terms (40_command.md R102, R243). -/
section
namespace Sys2Proof.Proofs

open Sys2Proof.Machine Sys2Proof.Certificates

theorem inb_eq_inputByte_fun (s : State) : s.inb = inputByte s := funext (inb_eq_inputByte s)

theorem sameOperands_of_exec {i : Instr} {s t : State} (h : exec i s = .next t) : sameOperands s t := by
  obtain ⟨hcfg, hlen, hA, hB, hin, hpend, hread, -⟩ := exec_frame h
  exact ⟨hcfg, hlen, hA, hB, fun a => by rw [hin], hpend, hread⟩

/-- The RES registers hold the numbers committed, and OUT keeps its bytes from the output's end on. -/
theorem committed_commitOk (s : State) (out : Nat → Byte) {len w hgt n : Nat} (hlen : len < 2 ^ 32)
    (hw : w < 2 ^ 32) (hh : hgt < 2 ^ 32) (hn : n < 2 ^ 32) :
    committed s (s.commitOk out len w hgt n).nextDraw len w hgt n := by
  refine ⟨rfl, rfl, zext32_toNat hlen, zext32_toNat hw, zext32_toNat hh, zext32_toNat hn, fun a ha => ?_⟩
  simp only [State.nextDraw_outMem, State.commitOk_outMem, Memory.read_writeFirst, if_neg (Nat.not_lt.2 ha)]

/-- Command `i` succeeds at `s` with the first `len` bytes of `out` as its output and the given numbers in the RES
registers. -/
def succeedsWith (i : Instr) (s : State) (out : Nat → Byte) (len w hgt n : Nat) : Prop :=
  ∃ t, exec i s = .next t ∧ committed s t len w hgt n ∧ sameOperands s t ∧
    ∀ a, a < len → t.outMem.read a = some (out a)

/-- A command that passes both its phases succeeds with what its compute phase answers. -/
theorem succeedsWith_of_phases {i : Instr} {s : State} (hl : s.cfg.legal) {out : Nat → Byte} {len w hgt n : Nat}
    (hc : checkOf i s.snapshot = none) (hr : computeOf i s.snapshot s.inb = .ok out len w hgt n)
    (hn : n < 2 ^ 32) : succeedsWith i s out len w hgt n := by
  obtain ⟨-, hlen, hw, hh, -, -⟩ := commit_fits hl hc hr
  have he : exec i s = .next (s.commitOk out len w hgt n).nextDraw := by
    rw [exec_eq_runCommand, runCommand_succeeds hc hr]
  refine ⟨_, he, committed_commitOk s out hlen hw hh hn, sameOperands_of_exec he, fun a ha => ?_⟩
  simp only [State.nextDraw_outMem, State.commitOk_outMem, Memory.read_writeFirst, if_pos ha]

/-- Only the bytes below the output's length matter. -/
theorem succeedsWith_congr {i : Instr} {s : State} {out out' : Nat → Byte} {len w hgt n : Nat}
    (h : succeedsWith i s out len w hgt n) (e : ∀ a, a < len → out a = out' a) :
    succeedsWith i s out' len w hgt n := by
  obtain ⟨t, ht, hcom, hsame, hread⟩ := h
  exact ⟨t, ht, hcom, hsame, fun a ha => by rw [hread a ha, e a ha]⟩

/-- R243: a command that runs after the copy computes with the bytes the first one put in OUT. -/
theorem inputByte_of_copied {t s' : State} {n a : Nat} {b : Byte} (hc : copied t s' n) (ha : a < n)
    (h : t.outMem.read a = some b) : inputByte s' a = b := by
  have hin : s'.inMem.read a = some b := (hc.2 a ha).trans h
  simp [inputByte, hin]

end Sys2Proof.Proofs
end

/-! The tile commands: their results, their errors and the two round trips (41_tile_codec.md R128–R134). -/
section
namespace Sys2Proof.Proofs

open Sys2Proof.Machine Sys2Proof.Certificates

/-! The commands by depth. -/

theorem tileBytes_eq_bytesPerTile (d : Depth) : tileBytes d = bytesPerTile d := by cases d <;> rfl

theorem exec_tdecAt (d : Depth) (s : State) : exec (tdecAt d) s = tileDecode d s := by cases d <;> rfl

theorem exec_tencAt (d : Depth) (s : State) : exec (tencAt d) s = tileEncode d s := by cases d <;> rfl

theorem checkOf_tdecAt (d : Depth) : checkOf (tdecAt d) = tileDecodeCheck d := by cases d <;> rfl

theorem checkOf_tencAt (d : Depth) : checkOf (tencAt d) = tileEncodeCheck d := by cases d <;> rfl

theorem computeOf_tdecAt (d : Depth) : computeOf (tdecAt d) = tileDecodeCompute d := by cases d <;> rfl

theorem computeOf_tencAt (d : Depth) : computeOf (tencAt d) = tileEncodeCompute d := by cases d <;> rfl

/-! TILE_DECODE's result (R130). -/

/-- The premises of TILE_DECODE's results are what its check phase tests. -/
theorem tileDecodeCheck_passes {d : Depth} {s : State} (hT : s.argA.toNat ≠ 0)
    (hL : s.inLen.toNat % bytesPerTile d = 0) (hin : s.inLen.toNat ≤ s.cfg.inSize)
    (hW : s.argA.toNat * 8 ≤ 2 ^ 32 - 1)
    (hout : s.argA.toNat * 8 * decodeHeight d s.inLen.toNat s.argA.toNat ≤ s.cfg.outSize) :
    tileDecodeCheck d s.snapshot = none :=
  tileDecodeCheck_none.2 ⟨hT, hL, hin, hW, hout⟩

/-- R130: a TILE_DECODE that passes its checks succeeds with the raster. -/
theorem tdecAt_succeedsWith {d : Depth} {s : State} (hl : s.cfg.legal) (hc : tileDecodeCheck d s.snapshot = none) :
    succeedsWith (tdecAt d) s
      (fun a => decodedPixel d s.argA.toNat (tileCountOf d s.inLen.toNat) (inputByte s)
        (a % (s.argA.toNat * 8)) (a / (s.argA.toNat * 8)))
      (s.argA.toNat * 8 * decodeHeight d s.inLen.toNat s.argA.toNat) (s.argA.toNat * 8)
      (decodeHeight d s.inLen.toNat s.argA.toNat) (tileCountOf d s.inLen.toNat) := by
  have hn : tileCountOf d s.inLen.toNat < 2 ^ 32 := lt_of_le_of_lt (Nat.div_le_self _ _) s.inLen.isLt
  rw [← inb_eq_inputByte_fun]
  exact succeedsWith_of_phases hl (by rwa [checkOf_tdecAt]) (by rw [computeOf_tdecAt]; rfl) hn

/-- Settles O26: the decoded pixel, by the parity of its number in the tile. -/
theorem tileDecode4UnpacksNibbles : Obligations.TileDecode4UnpacksNibbles := by
  intro s hl T L W H hT hL hin hW hout
  obtain ⟨t, ht, hcom, hsame, hread⟩ :=
    tdecAt_succeedsWith (d := .bpp4) hl (tileDecodeCheck_passes hT hL hin hW hout)
  refine ⟨t, ht, hcom, hsame, ?_⟩
  rintro x y hx hy _ _ rfl rfl
  rw [apply_rowMajor (fun x y => some (decodedPixel .bpp4 T (L / 32) (inputByte s) x y)) hread hx hy]
  refine ⟨fun hpad => ?_, fun hlt heven => ?_, fun hlt hodd => ?_⟩
  · exact congrArg some (decodedPixel_padding hpad)
  · exact congrArg some ((decodedPixel_of_lt hlt).trans (pixel4_of_even _ heven))
  · exact congrArg some ((decodedPixel_of_lt hlt).trans (pixel4_of_odd _ hodd))

/-- Settles O27: at 8 bpp the decoded pixel is a byte of the buffer. -/
theorem tileDecode8MovesWholeBytes : Obligations.TileDecode8MovesWholeBytes := by
  intro s hl T L W H hT hL hin hW hout
  obtain ⟨t, ht, hcom, hsame, hread⟩ :=
    tdecAt_succeedsWith (d := .bpp8) hl (tileDecodeCheck_passes hT hL hin hW hout)
  refine ⟨t, ht, hcom, hsame, ?_⟩
  rintro x y hx hy _ _ rfl rfl
  rw [apply_rowMajor (fun x y => some (decodedPixel .bpp8 T (L / 64) (inputByte s) x y)) hread hx hy]
  refine ⟨fun hpad => ?_, fun hlt => ?_⟩
  · exact congrArg some (decodedPixel_padding hpad)
  · exact congrArg some (decodedPixel_of_lt hlt)

/-! TILE_ENCODE's result (R131). -/

/-- The premises of TILE_ENCODE's results are what its check phase tests. -/
theorem tileEncodeCheck_passes {d : Depth} {s : State} (hW : s.argA.toNat % 8 = 0) (hH : s.argB.toNat % 8 = 0)
    (hin : s.argA.toNat * s.argB.toNat ≤ s.cfg.inSize)
    (hout : rasterTiles s.argA.toNat s.argB.toNat * bytesPerTile d ≤ s.cfg.outSize) :
    tileEncodeCheck d s.snapshot = none :=
  tileEncodeCheck_none.2 ⟨hW, hH, hin, hout⟩

/-- R128: pixels that fit the depth pass the range check. -/
theorem pixelOutOfRange_eq_false {d : Depth} {W H : Nat} {inb : Nat → Byte}
    (h : d = .bpp4 → ∀ a, a < W * H → (inb a).toNat ≤ 15) : pixelOutOfRange d W H inb = false := by
  rw [← Bool.not_eq_true, pixelOutOfRange_eq_true]
  rintro ⟨hd, a, ha, hlt⟩
  exact absurd (h hd a ha) (Nat.not_le.2 hlt)

/-- R131: a TILE_ENCODE that passes its checks, on pixels that fit the depth, succeeds with the tiles. -/
theorem tencAt_succeedsWith {d : Depth} {s : State} (hl : s.cfg.legal) (hc : tileEncodeCheck d s.snapshot = none)
    (hfit : d = .bpp4 → ∀ a, a < s.argA.toNat * s.argB.toNat → (inputByte s a).toNat ≤ 15) :
    succeedsWith (tencAt d) s
      (fun a => packTileByte d s.argA.toNat (inputByte s) (a / bytesPerTile d) (a % bytesPerTile d))
      (rasterTiles s.argA.toNat s.argB.toNat * bytesPerTile d) s.argA.toNat s.argB.toNat
      (rasterTiles s.argA.toNat s.argB.toNat) := by
  have hn : rasterTiles s.argA.toNat s.argB.toNat < 2 ^ 32 := by
    obtain ⟨-, -, -, hbytes⟩ := tileEncodeCheck_none.1 hc
    have hle := Nat.le_mul_of_pos_right (rasterTiles s.argA.toNat s.argB.toNat) (bytesPerTile_pos d)
    obtain ⟨-, -, -, hsize⟩ := hl
    simp only [State.snapshot_argA, State.snapshot_argB, State.snapshot_outSize] at hbytes
    omega
  rw [← inb_eq_inputByte_fun] at hfit ⊢
  refine succeedsWith_of_phases hl (by rwa [checkOf_tencAt]) ?_ hn
  simp [computeOf_tencAt, tileEncodeCompute, pixelOutOfRange_eq_false hfit]

/-- Settles O28: the packed byte holds the two pixels, which fit a nibble each. -/
theorem tileEncode4PacksNibbles : Obligations.TileEncode4PacksNibbles := by
  intro s hl W H tc pixel hW hH hin hout hfit
  obtain ⟨t, ht, hcom, hsame, hread⟩ :=
    tencAt_succeedsWith (d := .bpp4) hl (tileEncodeCheck_passes hW hH hin hout) fun _ => hfit
  refine ⟨t, ht, hcom, hsame, fun tile k htile hk => ⟨packTileByte .bpp4 W (inputByte s) tile k,
    apply_tileMajor (fun t k => some (packTileByte .bpp4 W (inputByte s) t k)) hread htile hk, ?_⟩⟩
  have hnibble : ∀ p, p < 64 → pixel tile p ≤ 15 := fun p hp => hfit _ (tile_offset_lt hW hH htile hp)
  have hlow := hnibble (2 * k) (by omega)
  have hhigh := hnibble (2 * k + 1) (by omega)
  have hbyte : (packTileByte .bpp4 W (inputByte s) tile k).toNat =
      pixel tile (2 * k) % 16 + pixel tile (2 * k + 1) % 16 * 16 := pack4_toNat _ k
  omega

/-- Settles O29: at 8 bpp the packed byte is the pixel. -/
theorem tileEncode8MovesWholeBytes : Obligations.TileEncode8MovesWholeBytes := by
  intro s hl W H tc hW hH hin hout
  obtain ⟨t, ht, hcom, hsame, hread⟩ :=
    tencAt_succeedsWith (d := .bpp8) hl (tileEncodeCheck_passes hW hH hin hout) nofun
  exact ⟨t, ht, hcom, hsame, fun tile p htile hp =>
    apply_tileMajor (fun t p => some (packTileByte .bpp8 W (inputByte s) t p)) hread htile hp⟩

/-! TILE_ENCODE's errors (R128, R206, R209). -/

/-- R128: only a raster at 4 bpp with a pixel above 15 makes TILE_ENCODE report PixelIndexOutOfRange. -/
theorem exists_pixel_of_exec_tencAt {d : Depth} {s t : State} (h : exec (tencAt d) s = .next t)
    (hcode : t.code = .pixelIndexOutOfRange) :
    d = .bpp4 ∧ ∃ a, a < s.argA.toNat * s.argB.toNat ∧ 15 < (inputByte s a).toNat := by
  rw [exec_tencAt, tileEncode] at h
  obtain ⟨c, hc, e⟩ | ⟨c, -, hr, e⟩ | ⟨out, len, w, hgt, n, -, -, e⟩ :=
    runCommand_cases (tileEncodeCheck d) (tileEncodeCompute d) s <;> rw [e] at h <;> cases h
  case inl =>
    obtain rfl : c = .pixelIndexOutOfRange := hcode
    unfold tileEncodeCheck at hc
    split_ifs at hc <;> cases hc
  case inr.inl =>
    cases hp : pixelOutOfRange d s.argA.toNat s.argB.toNat s.inb with
    | true => rwa [pixelOutOfRange_eq_true, inb_eq_inputByte_fun] at hp
    | false => simp [tileEncodeCompute, hp] at hr
  case inr.inr => cases hcode

/-- Settles O21: the conditions of the check phase in their order, and after it the range check. -/
theorem tileEncodeReportsErrorsInOrder : Obligations.TileEncodeReportsErrorsInOrder := by
  intro d s W H fits
  simp only [exec_tencAt]
  refine ⟨fun hdim => ?_, fun hW hH hfits => ?_, ?_, fun hd => ?_⟩
  · exact runCommand_check_fails (if_pos hdim)
  · have hroom : s.cfg.inSize < W * H ∨ s.cfg.outSize < rasterTiles W H * bytesPerTile d := by
      rw [← tileBytes_eq_bytesPerTile, ← Nat.not_le, ← Nat.not_le]
      exact not_and_or.1 hfits
    exact runCommand_check_fails ((if_neg (not_or.2 ⟨not_not.2 hW, not_not.2 hH⟩)).trans (if_pos hroom))
  · rintro hW hH ⟨hin, hout⟩ rfl hpix
    rw [tileEncode_pixel_fails (tileEncodeCheck_passes (d := .bpp4) hW hH hin hout)
      (pixelOutOfRange_eq_true.2 ⟨rfl, by rwa [inb_eq_inputByte_fun]⟩)]
    exact ⟨s.draws + 1, rfl⟩
  · obtain ⟨t, ht⟩ := exec_next (tencAt d) s
    refine ⟨t, exec_tencAt d s ▸ ht, fun hcode => ?_⟩
    obtain ⟨rfl, -⟩ := exists_pixel_of_exec_tencAt ht hcode
    cases hd

/-! The laws (R132–R134): the second command of each round trip, on any state whose IN holds what the first one put in
OUT. -/

/-- R132: a TILE_DECODE of the tiles of raster `f` succeeds with `f`. -/
theorem tdecAt_succeedsWith_of_encoded {d : Depth} {s : State} {f : Nat → Byte} {W H : Nat} (hl : s.cfg.legal)
    (hW8 : 8 ≤ W) (hW : W % 8 = 0) (hH : H % 8 = 0) (hlt : W < 2 ^ 32) (hin : W * H ≤ s.cfg.inSize)
    (hout : W * H ≤ s.cfg.outSize) (hA : s.argA.toNat = W / 8)
    (hL : s.inLen.toNat = rasterTiles W H * bytesPerTile d)
    (hfit : d = .bpp4 → ∀ a, a < W * H → (f a).toNat ≤ 15)
    (htiles : ∀ a, a < rasterTiles W H * bytesPerTile d →
      inputByte s a = packTileByte d W f (a / bytesPerTile d) (a % bytesPerTile d)) :
    succeedsWith (tdecAt d) s f (W * H) W H (rasterTiles W H) := by
  have hhgt : decodeHeight d s.inLen.toNat s.argA.toNat = H := by
    rw [hL, hA]; exact decodeHeight_encoded d hW8 hH
  have hwid : s.argA.toNat * 8 = W := by omega
  have hcount : tileCountOf d s.inLen.toNat = rasterTiles W H := by rw [hL, tileCountOf_tiles]
  have hc : tileDecodeCheck d s.snapshot = none := by
    refine tileDecodeCheck_passes (by omega) (by rw [hL]; exact Nat.mul_mod_left _ _) ?_ (by omega) ?_
    · exact hL ▸ (rasterTiles_mul_bytesPerTile_le d hW hH).trans hin
    · rwa [hhgt, hwid]
  have h := tdecAt_succeedsWith hl hc
  rw [hhgt, hwid, hcount, hA] at h
  refine succeedsWith_congr h fun a ha => ?_
  rw [decodedPixel_of_encoded hW hH hfit htiles (column_lt ha) (row_lt ha), offset_eq]

/-- Settles O30: the copied bytes are the raster's tiles, and decoding undoes the tile permutation and the packing. -/
theorem tileEncodeThenDecodeIsIdentity : Obligations.TileEncodeThenDecodeIsIdentity := by
  intro d s hl W H
  refine ⟨fun hW8 hW hH hfit hin hout => ?_, fun hW0 s' hA => ?_⟩
  · have hroom : rasterTiles W H * bytesPerTile d ≤ s.cfg.outSize :=
      (rasterTiles_mul_bytesPerTile_le d hW hH).trans hout
    obtain ⟨t, ht, ⟨htcode, -, htlen, -⟩, ⟨htcfg, -⟩, htread⟩ :=
      tencAt_succeedsWith hl (tileEncodeCheck_passes hW hH hin hroom) hfit
    refine ⟨t, ht, htcode, fun s' hcopy hlen hA => ?_⟩
    have hcfg : s'.cfg = s.cfg := hcopy.1.trans htcfg
    obtain ⟨u, hu, ⟨hucode, -, hulen, huw, huh, -⟩, -, huread⟩ :=
      tdecAt_succeedsWith_of_encoded (hcfg ▸ hl) hW8 hW hH s.argA.isLt (hcfg ▸ hin) (hcfg ▸ hout) hA
        (hlen ▸ htlen) hfit fun a ha => inputByte_of_copied hcopy (htlen ▸ ha) (htread a ha)
    exact ⟨u, hu, hucode, BitVec.eq_of_toNat_eq huw, BitVec.eq_of_toNat_eq huh, hulen, huread⟩
  · have hT : s'.snapshot.argA = 0 := by rw [State.snapshot_argA, hA, hW0]
    rw [exec_tdecAt]
    exact runCommand_check_fails (if_pos hT)

/-- R133: a TILE_ENCODE of the raster that buffer `f` of `L` bytes decodes to, `T` tiles per row, succeeds with the
buffer and zero bytes for the padding tiles. -/
theorem tencAt_succeedsWith_of_decoded {d : Depth} {s : State} {f : Nat → Byte} {L T : Nat} (hl : s.cfg.legal)
    (hL : L % bytesPerTile d = 0) (hA : s.argA.toNat = T * 8) (hB : s.argB.toNat = decodeHeight d L T)
    (hin : T * 8 * decodeHeight d L T ≤ s.cfg.inSize) (hout : T * 8 * decodeHeight d L T ≤ s.cfg.outSize)
    (hraster : ∀ a, a < T * 8 * decodeHeight d L T →
      inputByte s a = decodedPixel d T (tileCountOf d L) f (a % (T * 8)) (a / (T * 8))) :
    succeedsWith (tencAt d) s (fun a => if a < L then f a else 0)
      (T * ceilDiv (tileCountOf d L) T * bytesPerTile d) (T * 8) (decodeHeight d L T)
      (T * ceilDiv (tileCountOf d L) T) := by
  have hW8 : T * 8 % 8 = 0 := Nat.mul_mod_left T 8
  have hH8 : decodeHeight d L T % 8 = 0 := Nat.mul_mod_left _ 8
  have hc : tileEncodeCheck d s.snapshot = none := by
    refine tileEncodeCheck_passes (by rwa [hA]) (by rwa [hB]) (by rwa [hA, hB]) ?_
    rw [hA, hB]
    exact (rasterTiles_mul_bytesPerTile_le d hW8 hH8).trans hout
  have hfit : d = .bpp4 → ∀ a, a < s.argA.toNat * s.argB.toNat → (inputByte s a).toNat ≤ 15 := by
    rintro rfl a ha
    rw [hraster a (by rwa [hA, hB] at ha)]
    exact decodedPixel_bpp4_le _ _ _ _ _
  have h := tencAt_succeedsWith hl hc hfit
  rw [hA, hB, rasterTiles_decoded] at h
  refine succeedsWith_congr h fun a ha => ?_
  rw [packTileByte_of_decoded hraster ha, tileCountOf_mul hL]

/-- Settles O31: the copied raster is the buffer's pixels with 0 in the padding tiles, and encoding undoes the tile
permutation and the unpacking. -/
theorem tileDecodeThenEncodeRestoresTheBuffer : Obligations.TileDecodeThenEncodeRestoresTheBuffer := by
  intro d s hl
  rw [tileBytes_eq_bytesPerTile]
  intro T L tc W H hT hL hin hW hout hback
  obtain ⟨t, ht, ⟨htcode, -, htlen, htw, hth, -⟩, ⟨htcfg, -⟩, htread⟩ :=
    tdecAt_succeedsWith hl (tileDecodeCheck_passes (d := d) hT hL hin hW hout)
  refine ⟨t, ht, htcode, fun s' hcopy hA hB => ?_⟩
  have hcfg : s'.cfg = s.cfg := hcopy.1.trans htcfg
  obtain ⟨u, hu, ⟨hucode, -, hulen, -⟩, -, huread⟩ :=
    tencAt_succeedsWith_of_decoded (hcfg ▸ hl) hL (hA ▸ htw) (hB ▸ hth) (hcfg ▸ hback) (hcfg ▸ hout)
      fun a ha => inputByte_of_copied hcopy (htlen ▸ ha) (htread a ha)
  have hbytes : u.resLen.toNat = if tc % T = 0 then L else L + (T - tc % T) * bytesPerTile d :=
    hulen.trans (grid_bytes (Nat.pos_of_ne_zero hT) hL)
  have hle : L ≤ u.resLen.toNat := by rw [hbytes]; split <;> omega
  refine ⟨u, hu, hucode, hbytes, fun a ha => ?_, fun a hge hlt => ?_⟩
  · exact (huread a (hulen ▸ lt_of_lt_of_le ha hle)).trans (congrArg some (if_pos ha))
  · exact (huread a (hulen ▸ hlt)).trans (congrArg some (if_neg (Nat.not_lt.2 hge)))

/-- Settles O32: a success passes the checks, so the output is decoded pixels, and the copied ones are the raster that
the second command checks. -/
theorem tileDecode4NeverExceedsFifteen : Obligations.TileDecode4NeverExceedsFifteen := by
  intro s hl
  obtain ⟨t, ht⟩ := exec_next .tdec4 s
  refine ⟨t, ht, fun hcode => ?_⟩
  obtain ⟨c, n, hne, rfl⟩ | ⟨-, -, -, -, -, hcheck, -, -⟩ := exec_cases ht
  · exact absurd hcode hne
  obtain ⟨t', ht', ⟨-, -, hlen, hw, hh, -⟩, -, hread⟩ := tdecAt_succeedsWith (d := .bpp4) hl hcheck
  obtain rfl : t = t' := Host.Outcome.next.inj (ht.symm.trans ht')
  have hsmall : ∀ a, a < t.resLen.toNat → ∃ b, t.outMem.read a = some b ∧ b.toNat ≤ 15 :=
    fun a ha => ⟨_, hread a (hlen ▸ ha), decodedPixel_bpp4_le _ _ _ _ _⟩
  refine ⟨hsmall, fun s' hcopy hA hB => ?_⟩
  obtain ⟨u, hu⟩ := exec_next .tenc4 s'
  refine ⟨u, hu, fun hbad => ?_⟩
  obtain ⟨-, a, ha, hlt⟩ := exists_pixel_of_exec_tencAt (d := .bpp4) hu hbad
  have ha : a < t.resLen.toNat := by rwa [hA, hB, hw, hh, ← hlen] at ha
  obtain ⟨b, hb, hle⟩ := hsmall a ha
  rw [inputByte_of_copied hcopy ha hb] at hlt
  exact absurd hle (Nat.not_le.2 hlt)

end Sys2Proof.Proofs
end

/-! The colour channels and the packed words, there and back (42_color_codec.md R160–R165). -/
section
namespace Sys2Proof.Proofs

open Sys2Proof.Machine

/-- An array of entries of `size` bytes, read at byte `c` of entry `i` (R165). -/
theorem apply_entry {α : Type} {g : Nat → α} {n size i c : Nat} (f : Nat → Nat → α)
    (h : ∀ a, a < size * n → g a = f (a / size) (a % size)) (hi : i < n) (hc : c < size) :
    g (size * i + c) = f i c := by
  rw [Nat.mul_comm] at h ⊢
  exact apply_tileMajor f h hi hc

/-! Channels: widening, narrowing and masking (R162, R163, R172, R173). -/

theorem and_0xF8_toNat (c : Byte) : (c &&& 0xF8).toNat = c.toNat / 8 * 8 := by
  have hc := c.isLt
  have hdiv : (c.toNat &&& 248) / 2 ^ 3 = c.toNat / 2 ^ 3 % 2 ^ 5 := by
    rw [Nat.and_div_two_pow]
    exact Nat.and_two_pow_sub_one_eq_mod _ 5
  have hmod : (c.toNat &&& 248) % 2 ^ 3 = 0 := by
    rw [Nat.and_mod_two_pow]
    exact Nat.and_zero _
  have hand : (c &&& 0xF8).toNat = c.toNat &&& 248 := BitVec.toNat_and c 0xF8
  omega

theorem and_0x7F_toNat (b : Byte) : (b &&& 0x7F).toNat = b.toNat % 128 :=
  (BitVec.toNat_and b 0x7F).trans (Nat.and_two_pow_sub_one_eq_mod _ 7)

theorem and_0x7F_eq_self {b : Byte} : b &&& 0x7F = b ↔ b.getLsbD 7 = false := by
  have hmsb : b.getLsbD 7 = b.msb := (BitVec.msb_eq_getLsbD_last b).symm
  rw [hmsb, BitVec.msb_eq_false_iff_two_mul_lt, ← BitVec.toNat_inj, and_0x7F_toNat]
  omega

theorem widen_narrow_eq_and (c : Byte) : widen (narrow c) = c &&& 0xF8 :=
  BitVec.eq_of_toNat_eq ((widen_narrow_toNat c).trans (and_0xF8_toNat c).symm)

theorem widen_narrow_eq_self {c : Byte} : widen (narrow c) = c ↔ c.toNat % 8 = 0 := by
  rw [← BitVec.toNat_inj, widen_narrow_toNat]
  omega

/-! The bytes of a decoded entry and of a packed word as arithmetic on the word. -/

theorem byte_eq_ofNat {b : Byte} {k : Nat} (h : b.toNat = k) : b = BitVec.ofNat 8 k := by
  rw [← h, BitVec.ofNat_toNat, BitVec.setWidth_eq]

section
variable (w : BitVec 16)

theorem decodedChannel_red : decodedChannel w 0 = BitVec.ofNat 8 (w.toNat % 32 * 8) :=
  byte_eq_ofNat (by rw [← red5_toNat]; exact widen_toNat _)

theorem decodedChannel_green : decodedChannel w 1 = BitVec.ofNat 8 (w.toNat / 32 % 32 * 8) :=
  byte_eq_ofNat (by rw [← green5_toNat]; exact widen_toNat _)

theorem decodedChannel_blue : decodedChannel w 2 = BitVec.ofNat 8 (w.toNat / 1024 % 32 * 8) :=
  byte_eq_ofNat (by rw [← blue5_toNat]; exact widen_toNat _)

theorem wordByte_low : wordByte w 0 = BitVec.ofNat 8 (w.toNat % 256) := byte_eq_ofNat (wordByte_zero_toNat w)

theorem wordByte_high : wordByte w 1 = BitVec.ofNat 8 (w.toNat / 256) := byte_eq_ofNat (wordByte_one_toNat w)

end

theorem entryWord_toNat (f : Nat → Byte) (i : Nat) :
    (entryWord f i).toNat = (f (2 * i)).toNat + 256 * (f (2 * i + 1)).toNat := le16_toNat _ _

theorem encodedWord_toNat (f : Nat → Byte) (i : Nat) :
    (encodedWord f i).toNat =
      (f (3 * i)).toNat / 8 + (f (3 * i + 1)).toNat / 8 * 32 + (f (3 * i + 2)).toNat / 8 * 1024 := by
  simp only [encodedWord, pack15_toNat, narrow_toNat]

/-! Packing a ColorTable and decoding its words (R172). `f` is the table, `g` the bytes of its words. -/

theorem entryWord_of_encoded {f g : Nat → Byte} {n i : Nat} (hi : i < n)
    (hg : ∀ a, a < 2 * n → g a = wordByte (encodedWord f (a / 2)) (a % 2)) : entryWord g i = encodedWord f i := by
  have hlow : g (2 * i) = wordByte (encodedWord f i) 0 :=
    apply_entry (fun i k => wordByte (encodedWord f i) k) hg hi (by decide : 0 < 2)
  have hhigh : g (2 * i + 1) = wordByte (encodedWord f i) 1 :=
    apply_entry (fun i k => wordByte (encodedWord f i) k) hg hi (by decide)
  rw [entryWord, hlow, hhigh, le16_wordBytes]

theorem decodedChannel_encodedWord (f : Nat → Byte) (i : Nat) {c : Nat} (hc : c < 3) :
    decodedChannel (encodedWord f i) c = widen (narrow (f (3 * i + c))) := by
  obtain rfl | rfl | rfl : c = 0 ∨ c = 1 ∨ c = 2 := by omega
  · exact congrArg widen (red5_pack15 _ _ _)
  · exact congrArg widen (green5_pack15 _ _ _)
  · exact congrArg widen (blue5_pack15 _ _ _)

theorem decodedChannel_of_encoded {f g : Nat → Byte} {n a : Nat} (ha : a < 3 * n)
    (hg : ∀ a, a < 2 * n → g a = wordByte (encodedWord f (a / 2)) (a % 2)) :
    decodedChannel (entryWord g (a / 3)) (a % 3) = widen (narrow (f a)) := by
  rw [entryWord_of_encoded (by omega : a / 3 < n) hg, decodedChannel_encodedWord f _ (Nat.mod_lt a (by decide)),
    Nat.div_add_mod]

/-! Decoding a PackedPalette and packing its table (R173). `f` is the palette, `g` the bytes of the table. -/

/-- The bytes of a palette with bit 15 of every word cleared: bit 7 of the high bytes, which stand at odd offsets. -/
def clearedBit15 (f : Nat → Byte) (a : Nat) : Byte := if a % 2 = 0 then f a else f a &&& 0x7F

theorem clearedBit15_low (f : Nat → Byte) (i : Nat) : clearedBit15 f (2 * i) = f (2 * i) :=
  if_pos (by omega)

theorem clearedBit15_high (f : Nat → Byte) (i : Nat) : clearedBit15 f (2 * i + 1) = f (2 * i + 1) &&& 0x7F :=
  if_neg (by omega)

/-- R173: clearing is the identity exactly when every word has bit 15 = 0. -/
theorem clearedBit15_eq_self {f : Nat → Byte} {L : Nat} :
    (∀ a, a < L → clearedBit15 f a = f a) ↔ ∀ i, 2 * i + 1 < L → (f (2 * i + 1)).getLsbD 7 = false := by
  refine ⟨fun h i hi => ?_, fun h a ha => ?_⟩
  · rw [← and_0x7F_eq_self, ← clearedBit15_high, h _ hi]
  · obtain ⟨i, rfl | rfl⟩ := Nat.even_or_odd' a
    · exact clearedBit15_low f i
    · rw [clearedBit15_high, and_0x7F_eq_self.2 (h i ha)]

theorem encodedWord_of_decoded {f g : Nat → Byte} {n i : Nat} (hi : i < n)
    (hg : ∀ a, a < 3 * n → g a = decodedChannel (entryWord f (a / 3)) (a % 3)) :
    (encodedWord g i).toNat = (entryWord f i).toNat % 32768 := by
  have hchannel : ∀ c, c < 3 → g (3 * i + c) = decodedChannel (entryWord f i) c := fun c hc =>
    apply_entry (fun i c => decodedChannel (entryWord f i) c) hg hi hc
  have hred : narrow (g (3 * i)) = red5 (entryWord f i) :=
    (congrArg narrow (hchannel 0 (by decide))).trans (narrow_widen _)
  have hgreen : narrow (g (3 * i + 1)) = green5 (entryWord f i) :=
    (congrArg narrow (hchannel 1 (by decide))).trans (narrow_widen _)
  have hblue : narrow (g (3 * i + 2)) = blue5 (entryWord f i) :=
    (congrArg narrow (hchannel 2 (by decide))).trans (narrow_widen _)
  rw [encodedWord, hred, hgreen, hblue, pack15_unpack]

theorem wordByte_of_decoded {f g : Nat → Byte} {n a : Nat} (ha : a < 2 * n)
    (hg : ∀ a, a < 3 * n → g a = decodedChannel (entryWord f (a / 3)) (a % 3)) :
    wordByte (encodedWord g (a / 2)) (a % 2) = clearedBit15 f a := by
  have hword := encodedWord_of_decoded (by omega : a / 2 < n) hg
  rw [entryWord_toNat] at hword
  have hlow := (f (2 * (a / 2))).isLt
  have hhigh := (f (2 * (a / 2) + 1)).isLt
  apply BitVec.eq_of_toNat_eq
  obtain h0 | h1 := Nat.mod_two_eq_zero_or_one a
  · have ea : 2 * (a / 2) = a := by omega
    rw [h0, wordByte_zero_toNat, hword, ← congrArg (clearedBit15 f) ea, clearedBit15_low]
    omega
  · have ea : 2 * (a / 2) + 1 = a := by omega
    rw [h1, wordByte_one_toNat, hword, ← congrArg (clearedBit15 f) ea, clearedBit15_high, and_0x7F_toNat]
    omega

end Sys2Proof.Proofs
end

/-! The colour commands: their results, their errors and the two round trips (42_color_codec.md R160–R173). -/
section
namespace Sys2Proof.Proofs

open Sys2Proof.Machine Sys2Proof.Certificates

/-- R166, R170: with legal sizes, a COLOR_DECODE of 32 or 512 bytes succeeds with the decoded entries. -/
theorem cdec_succeedsWith {s : State} (hl : s.cfg.legal) (hL : s.inLen.toNat = 32 ∨ s.inLen.toNat = 512) :
    succeedsWith .cdec s (fun a => decodedChannel (entryWord (inputByte s) (a / 3)) (a % 3))
      (3 * (s.inLen.toNat / 2)) 0 0 (s.inLen.toNat / 2) := by
  have hc : colorDecodeCheck s.snapshot = none := by
    obtain ⟨hin, -, hout, -⟩ := hl
    simp only [colorDecodeCheck_none, State.snapshot_inLen, State.snapshot_inSize, State.snapshot_outSize]
    omega
  rw [← inb_eq_inputByte_fun]
  exact succeedsWith_of_phases hl hc rfl (by omega)

/-- R166, R171: with legal sizes, a COLOR_ENCODE of 16 or 256 entries succeeds with the packed words. -/
theorem cenc_succeedsWith {s : State} (hl : s.cfg.legal) (hA : s.argA.toNat = 16 ∨ s.argA.toNat = 256) :
    succeedsWith .cenc s (fun a => wordByte (encodedWord (inputByte s) (a / 2)) (a % 2))
      (2 * s.argA.toNat) 0 0 s.argA.toNat := by
  have hc : colorEncodeCheck s.snapshot = none := by
    obtain ⟨hin, -, hout, -⟩ := hl
    simp only [colorEncodeCheck_none, State.snapshot_argA, State.snapshot_inSize, State.snapshot_outSize]
    omega
  rw [← inb_eq_inputByte_fun]
  exact succeedsWith_of_phases hl hc rfl s.argA.isLt

/-- Settles O22: the size is the check phase's first condition, and with legal sizes its only one that can fail. -/
theorem colourCommandsRejectOtherPaletteSizes : Obligations.ColourCommandsRejectOtherPaletteSizes := by
  intro s
  simp only [List.mem_cons, List.not_mem_nil, or_false]
  refine ⟨fun hL => ?_, fun hA => ?_, fun hl hL => ?_, fun hl hA => ?_⟩
  · exact runCommand_check_fails (check := colorDecodeCheck) (if_pos (not_or.1 hL))
  · exact runCommand_check_fails (check := colorEncodeCheck) (if_pos (not_or.1 hA))
  · obtain ⟨t, ht, ⟨hcode, -⟩, -⟩ := cdec_succeedsWith hl hL
    exact ⟨t, ht, hcode⟩
  · obtain ⟨t, ht, ⟨hcode, -⟩, -⟩ := cenc_succeedsWith hl hA
    exact ⟨t, ht, hcode⟩

/-- Settles O33: each output byte is a channel of its entry word. -/
theorem colourDecodeWidensFiveBitChannels : Obligations.ColourDecodeWidensFiveBitChannels := by
  intro s hl hL n
  obtain ⟨t, ht, hcom, hsame, hread⟩ := cdec_succeedsWith hl hL
  refine ⟨t, ht, hcom, hsame, ?_⟩
  rintro i hi w hw
  rw [← entryWord_toNat] at hw
  subst hw
  have hchannel : ∀ c, c < 3 → t.outMem.read (3 * i + c) = some (decodedChannel (entryWord (inputByte s) i) c) :=
    fun c hc => apply_entry (fun i c => some (decodedChannel (entryWord (inputByte s) i) c)) hread hi hc
  rw [← decodedChannel_red, ← decodedChannel_green, ← decodedChannel_blue]
  exact ⟨hchannel 0 (by decide), hchannel 1 (by decide), hchannel 2 (by decide)⟩

/-- Settles O34: each output byte is a byte of its packed word, whose three channels leave bit 15 at 0. -/
theorem colourEncodeNarrowsAndPacks : Obligations.ColourEncodeNarrowsAndPacks := by
  intro s hl hA n
  obtain ⟨t, ht, hcom, hsame, hread⟩ := cenc_succeedsWith hl hA
  refine ⟨t, ht, hcom, hsame, ?_⟩
  rintro i hi w hw
  have hbit15 : w / 256 < 128 := by
    have hred := (inputByte s (3 * i)).isLt
    have hgreen := (inputByte s (3 * i + 1)).isLt
    have hblue := (inputByte s (3 * i + 2)).isLt
    omega
  rw [← encodedWord_toNat] at hw
  subst hw
  have hbyte : ∀ k, k < 2 → t.outMem.read (2 * i + k) = some (wordByte (encodedWord (inputByte s) i) k) :=
    fun k hk => apply_entry (fun i k => some (wordByte (encodedWord (inputByte s) i) k)) hread hi hk
  rw [← wordByte_low, ← wordByte_high]
  exact ⟨hbyte 0 (by decide), hbyte 1 (by decide), hbit15⟩

/-! The laws (R172, R173): the second command of each round trip, on any state whose IN holds what the first one put in
OUT. -/

/-- R172: a COLOR_DECODE of the packed words of table `f` succeeds with its channels narrowed and widened. -/
theorem cdec_succeedsWith_of_encoded {s : State} {f : Nat → Byte} {n : Nat} (hl : s.cfg.legal)
    (hn : n = 16 ∨ n = 256) (hL : s.inLen.toNat = 2 * n)
    (hwords : ∀ a, a < 2 * n → inputByte s a = wordByte (encodedWord f (a / 2)) (a % 2)) :
    succeedsWith .cdec s (fun a => widen (narrow (f a))) (3 * n) 0 0 n := by
  have h := cdec_succeedsWith hl (by omega)
  rw [hL, Nat.mul_div_cancel_left n (by decide)] at h
  exact succeedsWith_congr h fun a ha => decodedChannel_of_encoded ha hwords

/-- Settles O35: the copied bytes are the packed words, and decoding them widens each narrowed channel. -/
theorem colourEncodeThenDecodeFloorsChannels : Obligations.ColourEncodeThenDecodeFloorsChannels := by
  intro s hl hA
  obtain ⟨t, ht, ⟨htcode, -, htlen, -⟩, ⟨htcfg, -⟩, htread⟩ := cenc_succeedsWith hl hA
  refine ⟨t, ht, htcode, fun s' hcopy hlen => ?_⟩
  have hcfg : s'.cfg = s.cfg := hcopy.1.trans htcfg
  obtain ⟨u, hu, ⟨hucode, -, hulen, -⟩, -, huread⟩ :=
    cdec_succeedsWith_of_encoded (hcfg ▸ hl) hA (hlen ▸ htlen)
      fun a ha => inputByte_of_copied hcopy (htlen ▸ ha) (htread a ha)
  exact ⟨u, hu, hucode, hulen, fun a ha =>
    ⟨_, huread a ha, widen_narrow_toNat _, widen_narrow_eq_and _, widen_narrow_eq_self⟩⟩

/-- R173: a COLOR_ENCODE of the table that palette `f` decodes to succeeds with the palette, bit 15 of every word
cleared. -/
theorem cenc_succeedsWith_of_decoded {s : State} {f : Nat → Byte} {n : Nat} (hl : s.cfg.legal)
    (hn : n = 16 ∨ n = 256) (hA : s.argA.toNat = n)
    (htable : ∀ a, a < 3 * n → inputByte s a = decodedChannel (entryWord f (a / 3)) (a % 3)) :
    succeedsWith .cenc s (clearedBit15 f) (2 * n) 0 0 n := by
  have h := cenc_succeedsWith hl (hA ▸ hn)
  rw [hA] at h
  exact succeedsWith_congr h fun a ha => wordByte_of_decoded ha htable

/-- Settles O36: the copied bytes are the decoded channels, and packing them gives each word back but for bit 15. -/
theorem colourDecodeThenEncodeClearsBit15 : Obligations.ColourDecodeThenEncodeClearsBit15 := by
  intro s hl hL
  obtain ⟨t, ht, ⟨htcode, -, htlen, -, -, htcount, -⟩, ⟨htcfg, -⟩, htread⟩ := cdec_succeedsWith hl hL
  refine ⟨t, ht, htcode, fun s' hcopy hA => ?_⟩
  have hcfg : s'.cfg = s.cfg := hcopy.1.trans htcfg
  obtain ⟨u, hu, ⟨hucode, -, hulen, -⟩, -, huread⟩ :=
    cenc_succeedsWith_of_decoded (hcfg ▸ hl) (by omega) (hA ▸ htcount)
      fun a ha => inputByte_of_copied hcopy (htlen ▸ ha) (htread a ha)
  have hbytes : 2 * (s.inLen.toNat / 2) = s.inLen.toNat := by omega
  rw [hbytes] at hulen huread
  refine ⟨u, hu, hucode, BitVec.eq_of_toNat_eq hulen, fun i hi => ⟨?_, ?_⟩, ?_⟩
  · rw [huread _ (by omega), clearedBit15_low]
  · rw [huread _ hi, clearedBit15_high]
  · rw [← clearedBit15_eq_self]
    exact forall₂_congr fun a ha => by rw [huread a ha, Option.some_inj]

end Sys2Proof.Proofs
end

/-! The errors of a command word and of TILE_DECODE (60_exceptions.md R202, R203, R204, R208, R209). -/
section
namespace Sys2Proof.Proofs

open Sys2Proof.Machine Sys2Proof.Certificates

/-! Illegal command words (R202). -/

theorem decodeCmd_error_of_not_legal {w : Word} (h : (fieldsOf w).legal ≠ true) : ∃ e, decodeCmd w = .error e := by
  cases hw : decodeCmd w with
  | error e => exact ⟨e, rfl⟩
  | ok i => exact absurd (fieldsOf_legal_of_decodeCmd_ok hw) h

/-- R81, R83: what the legal fields of a word say of its bits. -/
theorem bits_of_fieldsOf_legal {w : Word} (h : (fieldsOf w).legal = true) :
    w.getLsbD 3 = false ∧ w.extractLsb' 5 27 = 0 ∧
      (w.extractLsb' 0 3 = 1 ∨ w.extractLsb' 0 3 = 2 ∨ w.extractLsb' 0 3 = 3 ∨ w.extractLsb' 0 3 = 4) := by
  simp only [CmdFields.legal, fieldsOf, Bool.and_eq_true, Bool.or_eq_true, beq_iff_eq, or_assoc] at h
  obtain ⟨⟨hrsv0, hrsv1⟩, hop⟩ := h
  have hbit : (w.extractLsb' 3 1).getLsbD 0 = false := by rw [hrsv0]; rfl
  exact ⟨by simpa using hbit, hrsv1, hop⟩

/-- Settles O7: each way to be illegal contradicts what legal fields say of the word's bits. -/
theorem illegalWordOnlyReportsIllegalCommand : Obligations.IllegalWordOnlyReportsIllegalCommand := by
  intro s data rest hp hill
  have hnot : (fieldsOf (s.dataValue data)).legal ≠ true := by
    intro hlegal
    obtain ⟨hbit3, hhigh, hop⟩ := bits_of_fieldsOf_legal hlegal
    obtain h | h | h | h | hset | hne := hill
    iterate 4
      · rw [h] at hop
        exact absurd hop (by decide)
    · rw [hset] at hbit3
      cases hbit3
    · exact hne hhigh
  obtain ⟨e, he⟩ := decodeCmd_error_of_not_legal hnot
  rw [step_cmdWrite hp, onCmdWrite_illegal he]
  rfl

/-! The errors of TILE_DECODE in their order (R203, R204, R208, R209). -/

/-- Settles O20: the conditions of the check phase in their order, each of which ends the command. -/
theorem tileDecodeReportsErrorsInOrder : Obligations.TileDecodeReportsErrorsInOrder := by
  intro d s T L H
  simp only [exec_tdecAt, tileBytes_eq_bytesPerTile, H]
  refine ⟨fun hT => ?_, fun hT hL => ?_, fun hT hL hroom => ?_⟩
  · exact runCommand_check_fails (if_pos hT)
  · exact runCommand_check_fails ((if_neg hT).trans (if_pos hL))
  · have hcap : s.cfg.inSize < L ∨ 2 ^ 32 - 1 < T * 8 ∨ s.cfg.outSize < T * 8 * decodeHeight d L T :=
      hroom.imp_right (Or.imp_left Nat.lt_of_succ_le)
    exact runCommand_check_fails ((if_neg hT).trans ((if_neg (not_not.2 hL)).trans (if_pos hcap)))

end Sys2Proof.Proofs
end

/-! Reset, and what the host, a command and a reset leave as it was (70_reset_and_hazards.md R230, R242, R244). -/
section
namespace Sys2Proof.Proofs

open Sys2Proof.Machine Sys2Proof.Certificates

/-! What a command that succeeds writes (R242). -/

/-- R102, R104: a committed output is all of OUT below RES_LEN, fits OUT, and leaves the bytes from RES_LEN on. -/
theorem commitOk_writes_exactly_output {i : Instr} {s : State} (hl : s.cfg.legal) {out : Nat → Byte}
    {len w hgt n : Nat} (hc : checkOf i s.snapshot = none)
    (hr : computeOf i s.snapshot s.inb = .ok out len w hgt n) :
    let t := s.commitOk out len w hgt n
    t.resLen.toNat ≤ s.cfg.outSize ∧ (∀ a, a < t.resLen.toNat → ∃ b, t.outMem.read a = some b) ∧
      ∀ a, t.resLen.toNat ≤ a → t.outMem.read a = s.outMem.read a := by
  obtain ⟨hfit, hlen, -⟩ := commit_fits hl hc hr
  simp only [State.commitOk_resLen, State.commitOk_outMem, zext32_toNat hlen, Memory.read_writeFirst]
  exact ⟨hfit, fun a ha => ⟨out a, if_pos ha⟩, fun a ha => if_neg (Nat.not_lt.2 ha)⟩

/-- Settles O25: of the two ends of a command, the one with CODE Ok commits its output. -/
theorem successfulCommandWritesOnlyItsOutput : Obligations.SuccessfulCommandWritesOnlyItsOutput := by
  intro i s hl
  obtain ⟨t, ht⟩ := exec_next i s
  refine ⟨t, ht, sameOperands_of_exec ht, fun hok => ?_⟩
  obtain ⟨c, n, hc, rfl⟩ | ⟨out, len, w, hgt, n, hc, hr, rfl⟩ := exec_cases ht
  · exact absurd hok hc
  · exact ⟨rfl, commitOk_writes_exactly_output hl hc hr⟩

/-! What only the host changes (R244). -/

theorem readReg_writeReg_other (s : State) {r r' : RegName} (h : r' ≠ r) (v : Word) :
    (s.writeReg r' v).readReg r = s.readReg r := by
  cases r <;> simp [State.readReg, h]

/-- The registers a command takes its operands from (R25–R27). -/
def isOperand (r : RegName) : Prop := r = .inLen ∨ r = .argA ∨ r = .argB

/-- R102, R103: no CMD write changes IN or an operand register. -/
theorem onCmdWrite_keeps_inputs {v : Word} {s t : State} (h : onCmdWrite v s = .next t) :
    t.inMem = s.inMem ∧ ∀ r, isOperand r → t.readReg r = s.readReg r := by
  obtain ⟨u, hu, -, hlen, hA, hB, hin, -⟩ := onCmdWrite_next v s
  obtain rfl : u = t := by simpa [hu] using h
  refine ⟨hin, fun r hr => ?_⟩
  obtain rfl | rfl | rfl := hr
  · exact hlen
  · exact hA
  · exact hB

theorem hostEvent_inMem {e : HostEvent} {s t : State} (h : hostEvent e s = .next t) (hreset : e ≠ .reset)
    (hne : ∀ off width data, e ≠ .memWrite .inMem off width data) : t.inMem = s.inMem := by
  obtain ⟨off, width, -, rfl⟩ | ⟨data, -, hcmd⟩ | ⟨r, data, -, -, rfl⟩ | ⟨off, width, data, -, -, rfl⟩ |
    ⟨space, off, width, -, -, rfl⟩ | ⟨space, off, width, data, -, he, rfl⟩ | ⟨he, -⟩ := hostEvent_cases h
  case inr.inl => exact (onCmdWrite_keeps_inputs hcmd).1
  case inr.inr.inr.inr.inr.inl =>
    cases space with
    | inMem => exact absurd he (hne off width data)
    | outMem => rfl
  case inr.inr.inr.inr.inr.inr => exact absurd he hreset
  all_goals simp

/-- An operand register keeps its value in every event but a reset and a host write of that register. -/
theorem hostEvent_operand {e : HostEvent} {s t : State} {r : RegName} (hr : isOperand r)
    (h : hostEvent e s = .next t) (hreset : e ≠ .reset) (hne : ∀ data, e ≠ .regWrite r.offset 4 data) :
    t.readReg r = s.readReg r := by
  obtain ⟨off, width, -, rfl⟩ | ⟨data, -, hcmd⟩ | ⟨r', data, -, he, rfl⟩ | ⟨off, width, data, -, -, rfl⟩ |
    ⟨space, off, width, -, -, rfl⟩ | ⟨space, off, width, data, -, -, rfl⟩ | ⟨he, -⟩ := hostEvent_cases h
  case inr.inl => exact (onCmdWrite_keeps_inputs hcmd).2 r hr
  case inr.inr.inl =>
    have hother : r' ≠ r := by
      rintro rfl
      exact hne data he
    exact readReg_writeReg_other s hother _
  case inr.inr.inr.inr.inr.inr => exact absurd he hreset
  all_goals obtain rfl | rfl | rfl := hr <;> simp [State.readReg]

theorem taken_readReg (s : State) (rest : List HostEvent) (r : RegName) :
    (taken s rest).readReg r = s.readReg r := by
  cases r <;> rfl

/-- Settles O44: the step is its one event, and no event but the one named changes IN or an operand register. -/
theorem onlyTheHostChangesInputs : Obligations.OnlyTheHostChangesInputs := by
  intro s t e rest hp hstep hreset
  have he : hostEvent e (taken s rest) = .next t := (step_event hp).symm.trans hstep
  have operand : ∀ r, isOperand r → (∀ data, e ≠ .regWrite r.offset 4 data) → t.readReg r = s.readReg r :=
    fun r hr hne => (hostEvent_operand hr he hreset hne).trans (taken_readReg s rest r)
  refine ⟨fun hne a => ?_, operand .inLen (.inl rfl), operand .argA (.inr (.inl rfl)),
    operand .argB (.inr (.inr rfl))⟩
  have hin : t.inMem = s.inMem := hostEvent_inMem (s := taken s rest) he hreset hne
  rw [hin]

/-! The state a reset leaves (R230). -/

/-- R22: the last register of the map stands at 0x28. -/
theorem registerOffset_lt (r : RegName) : r.offset < 0x2C := by
  cases r <;> decide

theorem readOffset_offset (s : State) (r : RegName) : s.readOffset r.offset = s.readReg r := by
  simp only [State.readOffset, RegName.atOffset_offset]

/-- R34: the offsets past the registers read 0. -/
theorem readOffset_past_registers (s : State) {off : Nat} (h : 0x2C ≤ off) : s.readOffset off = 0 := by
  have hnone : RegName.atOffset off = none :=
    RegName.atOffset_eq_none fun r => Nat.ne_of_lt (Nat.lt_of_lt_of_le (registerOffset_lt r) h)
  simp only [State.readOffset, hnone]

/-- The table of R230, from the fields of the state: what the offsets read follows from them. -/
theorem asAfterReset_of_fields {t : State} (hcode : t.code = .ok) (hdone : t.done = false) (hlen : t.inLen = 0)
    (hA : t.argA = 0) (hB : t.argB = 0) (hres : t.resLen = 0 ∧ t.resW = 0 ∧ t.resH = 0 ∧ t.resCount = 0)
    (hin : t.inMem = []) (hout : t.outMem = []) : asAfterReset t.cfg t := by
  obtain ⟨hL, hW, hH, hN⟩ := hres
  have hstatus : t.readOffset 0x04 = 0 := by
    rw [show 0x04 = RegName.status.offset from rfl, readOffset_offset, State.readReg, hcode, hdone]
    rfl
  exact ⟨rfl, hcode, hdone, hstatus, hlen, hA, hB, hL, hW, hH, hN, fun a => by rw [hin, Memory.read_nil],
    fun a => by rw [hout, Memory.read_nil], readOffset_offset t .cmd, fun _ => readOffset_past_registers t,
    readOffset_offset t .capIn, readOffset_offset t .capOut⟩

theorem asAfterReset_resetWith (c : Config) : asAfterReset c (State.resetWith c) :=
  asAfterReset_of_fields rfl rfl rfl rfl rfl ⟨rfl, rfl, rfl, rfl⟩ rfl rfl

theorem asAfterReset_resetBlock (s : State) : asAfterReset s.cfg s.resetBlock :=
  asAfterReset_of_fields rfl rfl rfl rfl rfl ⟨rfl, rfl, rfl, rfl⟩ rfl rfl

/-- Settles O18: the step of a reset is `resetBlock`, whose fields are those of `resetWith` at the same sizes. -/
theorem resetLeavesTheResetState : Obligations.ResetLeavesTheResetState :=
  ⟨fun s rest hp => ⟨(taken s rest).resetBlock, step_event hp, asAfterReset_resetBlock (taken s rest)⟩,
    asAfterReset_resetWith⟩

end Sys2Proof.Proofs
end

/-! The decoder and the encoder agree (30_encoding.md R80–R84, R87). -/
section
namespace Sys2Proof.Proofs

open Sys2Proof.Machine

/-! The encoding of a command under the mask of its row. -/

/-- The eight legal words, each against every command. -/
theorem decodeCmd_ok_iff_of_mem {w : Word} (hw : w ∈ legalCommandWords) (i : Instr) :
    decodeCmd w = .ok i ↔ w &&& encodingMask i = encode i := by
  have hall : legalCommandWords.Forall fun w => decodeCmd w = .ok i ↔ w &&& encodingMask i = encode i := by
    cases i <;> decide
  exact List.forall_iff_forall_mem.1 hall w hw

/-- R82: a mask leaves out no bit but DEPTH, bit 4. -/
theorem and_not_encodingMask (w : Word) (i : Instr) :
    w &&& ~~~encodingMask i = 0 ∨ w &&& ~~~encodingMask i = 0x10 := by
  have hdepth : w &&& 0x10 = 0 ∨ w &&& 0x10 = 0x10 := by
    have h := BitVec.and_twoPow w 4
    split at h
    · exact .inr h
    · exact .inl h
  cases i with
  | tdec4 | tdec8 | tenc4 | tenc8 => exact .inl BitVec.and_zero
  | cdec | cenc => exact hdepth

/-- A word that agrees with a command's encoding under the mask is that encoding, with DEPTH as it is or set. -/
theorem mem_legalCommandWords_of_masked {w : Word} {i : Instr} (h : w &&& encodingMask i = encode i) :
    w ∈ legalCommandWords := by
  have hsplit : w = encode i ||| (w &&& ~~~encodingMask i) := by
    rw [← h, ← BitVec.and_or_distrib_left, BitVec.or_not_self, BitVec.and_allOnes]
  rw [hsplit]
  obtain h0 | h16 := and_not_encodingMask w i
  · rw [h0]
    cases i <;> decide
  · rw [h16]
    cases i <;> decide

/-- Settles O3: on the eight legal words by evaluation; every other word is refused, and its masked bits are no
command's. -/
theorem decodeAcceptsExactlyTheMaskedEncoding : Obligations.DecodeAcceptsExactlyTheMaskedEncoding := by
  intro w i
  by_cases hw : w ∈ legalCommandWords
  · exact decodeCmd_ok_iff_of_mem hw i
  · obtain ⟨e, he⟩ := decodeCmd_error_of_not_mem hw
    have hmask : ¬ w &&& encodingMask i = encode i := fun h => hw (mem_legalCommandWords_of_masked h)
    simp [he, hmask]

/-! The listed words (R84, 95_test_vectors.md §2.1). -/

/-- Settles O1: the legal words as O2 gives them, and the illegal ones are none of the eight. -/
theorem commandWordsDecodeAsTheTableSays : Obligations.CommandWordsDecodeAsTheTableSays := by
  have hillegal : ∀ w ∈ [0x00000000, 0x00000005, 0x00000017, 0x00000009, 0x00000021, 0x80000003],
      BitVec.ofNat 32 w ∉ legalCommandWords := by decide
  refine ⟨by decide, by decide, by decide, by decide, by decide, by decide, by decide, by decide, ?_⟩
  intro w hw i hok
  exact hillegal w hw (mem_legalCommandWords_of_legal (fieldsOf_legal_of_decodeCmd_ok hok))

/-- The bits a mask leaves out are 0 in the encoded word (R87). -/
theorem encode_and_encodingMask (i : Instr) : encode i &&& encodingMask i = encode i := by
  cases i <;> decide

theorem decodeCmd_encode (i : Instr) : decodeCmd (encode i) = .ok i :=
  (decodeAcceptsExactlyTheMaskedEncoding (encode i) i).2 (encode_and_encodingMask i)

theorem decodeTableWord_toNat {w : Word} {i : Instr} (h : decodeCmd w = .ok i) :
    decodeTableWord 32 w.toNat = some i := by
  have hw : BitVec.ofNat 32 (w.toNat % 2 ^ 32) = w := by
    rw [Nat.mod_eq_of_lt w.isLt, BitVec.ofNat_toNat, BitVec.setWidth_eq]
  simp only [decodeTableWord, hw, h]

/-- Settles O4: an encoded word agrees with itself under the mask, so it decodes to its command. -/
theorem decodeUndoesEncode : Obligations.DecodeUndoesEncode :=
  fun i _ => ⟨decodeCmd_encode i, decodeTableWord_toNat (decodeCmd_encode i)⟩

/-- Settles O5: the two words of a colour command decode to it. -/
theorem colourCommandsIgnoreDepth : Obligations.ColourCommandsIgnoreDepth := by
  obtain ⟨-, -, -, -, hdec0, hdec1, henc0, henc1, -⟩ := commandWordsDecodeAsTheTableSays
  refine fun s => ⟨?_, ?_⟩
  · rw [onCmdWrite_ok hdec1, onCmdWrite_ok hdec0]
  · rw [onCmdWrite_ok henc1, onCmdWrite_ok henc0]

end Sys2Proof.Proofs
end

/-! Host accesses to the registers (10_state.md R20–R35, 60_exceptions.md R201). -/
section
namespace Sys2Proof.Proofs

open Sys2Proof.Machine Sys2Proof.Certificates

/-! STATUS (R24). -/

section
variable (c : StatusCode) (d : Bool)

theorem statusWord_code : (statusWord c d).extractLsb' 0 4 = c.bits :=
  BitVec.extractLsb'_append_eq_right

theorem statusWord_low_reserved : (statusWord c d).extractLsb' 4 4 = 0 :=
  (BitVec.extractLsb'_append_eq_of_le (by decide)).trans BitVec.extractLsb'_append_eq_right

theorem statusWord_done : (statusWord c d).getLsbD 8 = d := by
  simp only [statusWord, BitVec.getLsbD_append]
  cases d <;> rfl

theorem statusWord_high_reserved : (statusWord c d).extractLsb' 9 23 = 0 :=
  calc (statusWord c d).extractLsb' 9 23
    _ = ((0 : BitVec 23) ++ BitVec.ofBool d ++ (0 : BitVec 4)).extractLsb' 5 23 :=
      BitVec.extractLsb'_append_eq_of_le (by decide)
    _ = ((0 : BitVec 23) ++ BitVec.ofBool d).extractLsb' 1 23 := BitVec.extractLsb'_append_eq_of_le (by decide)
    _ = (0 : BitVec 23).extractLsb' 0 23 := BitVec.extractLsb'_append_eq_of_le (by decide)
    _ = 0 := BitVec.extractLsb'_eq_self
end

/-- Settles O11: each field of the word, and the number of each code. -/
theorem statusFieldsStandAtTheirBits : Obligations.StatusFieldsStandAtTheirBits := by
  intro c d
  refine ⟨statusWord_low_reserved c d, statusWord_high_reserved c d, statusWord_done c d, ?_⟩
  rw [statusWord_code]
  cases c <;> rfl

/-! The register map (R22, R34). -/

/-- An offset is that of a register, or it is reserved and no register stands there. -/
theorem offset_cases (off : Nat) :
    (∃ r : RegName, off = r.offset) ∨ (RegName.atOffset off = none ∧ ∀ r : RegName, off ≠ r.offset) := by
  cases h : RegName.atOffset off with
  | some r => exact .inl ⟨r, (RegName.offset_of_atOffset h).symm⟩
  | none =>
    refine .inr ⟨rfl, fun r hr => ?_⟩
    rw [hr, RegName.atOffset_offset] at h
    cases h

/-- The map of R22 as the statements write it. -/
theorem readOffset_eq_map (s : State) (off : Nat) :
    s.readOffset off =
      if off = 0x00 then 0
      else if off = 0x04 then statusWord s.code s.done
      else if off = 0x08 then s.inLen
      else if off = 0x0C then s.argA
      else if off = 0x10 then s.argB
      else if off = 0x14 then s.resLen
      else if off = 0x18 then s.resW
      else if off = 0x1C then s.resH
      else if off = 0x20 then s.resCount
      else if off = 0x24 then BitVec.ofNat 32 s.cfg.inSize
      else if off = 0x28 then BitVec.ofNat 32 s.cfg.outSize
      else 0 := by
  obtain ⟨r, rfl⟩ | ⟨hnone, hne⟩ := offset_cases off
  · rw [readOffset_offset]
    cases r <;> rfl
  · have hmap : ∀ r ∈ RegName.all, off ≠ r.offset := fun r _ => hne r
    simp only [RegName.all, List.forall_mem_cons, RegName.offset] at hmap
    simp [State.readOffset, hnone, hmap]

/-- R35, R57: a register read sets the value the host reads, and nothing else. -/
theorem step_regRead {s : State} {off : Nat} {rest : List HostEvent} (h : s.pending = .regRead off 4 :: rest)
    (ha : regAccessAllowed off 4) : step s = .next ((taken s rest).setReadData (s.readOffset off)) := by
  rw [step_event h]
  exact if_pos ha

/-- Settles O10: the value read, by the map. -/
theorem registerReadsFollowTheMap : Obligations.RegisterReadsFollowTheMap := by
  intro s off rest hp halign hlt
  rw [step_regRead hp ⟨rfl, halign, hlt⟩, readOffset_eq_map]
  rfl

/-! Register writes (R22–R34). -/

/-- R22, R25–R35: a host write to a register other than CMD. -/
theorem step_regWrite {s : State} {r : RegName} {data : HostData} {rest : List HostEvent}
    (h : s.pending = .regWrite r.offset 4 data :: rest) (hr : r ≠ .cmd) :
    step s = .next ((taken s rest).writeReg r (s.dataValue data)) := by
  have ha : regAccessAllowed r.offset 4 := by cases r <;> decide
  rw [step_event h, ← taken_dataValue s rest]
  exact hostRegWrite_reg ha (RegName.atOffset_offset r) hr

/-- Settles O12: a register's offset writes that register, and a reserved offset nothing. -/
theorem registerWritesReachOnlyTheOperands : Obligations.RegisterWritesReachOnlyTheOperands := by
  intro s off data rest hp halign hlt hcmd
  obtain ⟨r, rfl⟩ | ⟨hnone, hne⟩ := offset_cases off
  · have hr : r ≠ .cmd := by rintro rfl; exact hcmd rfl
    rw [step_regWrite hp hr]
    cases r <;> rfl
  · have hlen : off ≠ 0x08 := hne .inLen
    have hA : off ≠ 0x0C := hne .argA
    have hB : off ≠ 0x10 := hne .argB
    rw [step_event hp, if_neg hlen, if_neg hA, if_neg hB]
    exact hostRegWrite_reserved ⟨rfl, halign, hlt⟩ hnone

/-- Settles O13: a register access that is not allowed is the stop of its two events. -/
theorem undefinedRegisterAccessStops : Obligations.UndefinedRegisterAccessStops := by
  intro s off width data rest hnot
  exact ⟨fun hp => (step_event hp).trans (if_neg hnot), fun hp => (step_event hp).trans (if_neg hnot)⟩

end Sys2Proof.Proofs
end

/-! Host accesses to IN and OUT (20_memory.md R51, R52, R63). -/
section
namespace Sys2Proof.Proofs

open Sys2Proof.Machine Sys2Proof.Certificates

/-! The steps of the two accesses. -/

@[simp] theorem taken_mem (s : State) (rest : List HostEvent) (space : Space) :
    (taken s rest).mem space = s.mem space := by
  cases space <;> rfl

/-- R51, R38: a memory read is one drawing read, and sets the value the host reads. -/
theorem step_memRead {s : State} {space : Space} {off width : Nat} {rest : List HostEvent}
    (h : s.pending = .memRead space off width :: rest) (ha : memAccessAllowed (space.size s.cfg) off width) :
    step s = .next ((taken s rest).setReadData ((s.mem space).readLE s.draws off width)).nextDraw := by
  rw [step_event h, ← taken_mem s rest]
  exact if_pos ha

/-- R51: a memory write sets the bytes of its space. -/
theorem step_memWrite {s : State} {space : Space} {off width : Nat} {data : HostData} {rest : List HostEvent}
    (h : s.pending = .memWrite space off width data :: rest) (ha : memAccessAllowed (space.size s.cfg) off width) :
    step s = .next ((taken s rest).setMem space ((s.mem space).writeLE off width (s.dataValue data))) := by
  rw [step_event h, ← taken_mem s rest, ← taken_dataValue s rest]
  exact if_pos ha

/-- Settles O17: an access that is not allowed is the stop of its two events. -/
theorem undefinedMemoryAccessStops : Obligations.UndefinedMemoryAccessStops := by
  intro s space off width data rest hnot
  exact ⟨fun hp => (step_event hp).trans (if_neg hnot), fun hp => (step_event hp).trans (if_neg hnot)⟩

/-- Settles O14: the value read is below 2^(8 width), and its bytes are those of the memory, or the draws. -/
theorem memoryReadReturnsBytesLittleEndian : Obligations.MemoryReadReturnsBytesLittleEndian := by
  intro s space off width rest hp hwidth halign hfit
  have hfour : width ≤ 4 := by omega
  refine ⟨(s.mem space).readLE s.draws off width, step_memRead hp ⟨hwidth, halign, hfit⟩,
    Memory.readLE_lt _ _ _ _, fun k hk b hb => ?_, fun k hk hnone => ?_⟩
  · exact (Memory.readLE_byte _ _ _ hfour hk).trans (Memory.readByte_written hb _)
  · exact (Memory.readLE_byte _ _ _ hfour hk).trans (Memory.readByte_unwritten hnone _)

/-- Settles O15: the bytes of the memory that the write leaves. -/
theorem memoryWriteStoresBytesLittleEndian : Obligations.MemoryWriteStoresBytesLittleEndian := by
  intro s space off width data rest hp hwidth halign hfit
  refine ⟨(s.mem space).writeLE off width (s.dataValue data), ?_, fun k hk => ?_, fun a ha => ?_⟩
  · rw [step_memWrite hp ⟨hwidth, halign, hfit⟩]
    cases space <;> rfl
  · rw [Memory.read_writeLE, if_pos (by omega), Nat.add_sub_cancel_left]
    rfl
  · rw [Memory.read_writeLE, if_neg (by omega)]

/-! Reading back what was written (R63). -/

theorem leValue_append (bs : List Byte) (b : Byte) :
    leValue (bs ++ [b]) = leValue bs + 2 ^ (8 * bs.length) * b.toNat := by
  induction bs with
  | nil => simp [leValue]
  | cons c bs ih =>
    simp only [List.cons_append, leValue, ih, List.length_cons]
    ring

/-- R51, R52: the low bytes of a value, put together again. -/
theorem leValue_leBytes (v : Word) (width : Nat) :
    leValue ((List.range width).map (leByte v)) = v.toNat % 2 ^ (8 * width) := by
  induction width with
  | zero => simp [leValue, Nat.mod_one]
  | succ n ih =>
    have hbyte : (leByte v n).toNat = v.toNat / 2 ^ (8 * n) % 2 ^ 8 := by
      rw [leByte, BitVec.extractLsb'_toNat, Nat.shiftRight_eq_div_pow]
    rw [List.range_succ, List.map_append, List.map_singleton, leValue_append, ih, hbyte, List.length_map,
      List.length_range, Nat.mul_succ, Nat.pow_add, Nat.mod_mul]

/-- R63: a read of the bytes just written returns the low bytes of the value written. -/
theorem readLE_writeLE (m : Memory) (v : Word) (n off width : Nat) :
    ((m.writeLE off width v).readLE n off width).toNat = v.toNat % 2 ^ (8 * width) := by
  have hbytes : (List.range width).map (fun k => (m.writeLE off width v).readByte n (off + k))
      = (List.range width).map (leByte v) := by
    refine List.map_congr_left fun k hk => Memory.readByte_written ?_ n
    have hlt : k < width := List.mem_range.1 hk
    rw [Memory.read_writeLE, if_pos (by omega), Nat.add_sub_cancel_left]
  rw [Memory.readLE, hbytes, leValue_leBytes, BitVec.toNat_ofNat]
  exact Nat.mod_eq_of_lt (lt_of_le_of_lt (Nat.mod_le _ _) v.isLt)

/-- Settles O16: the write's step, the read's step, and the value that comes back. -/
theorem hostReadsBackWhatItWrote : Obligations.HostReadsBackWhatItWrote := by
  intro s space off width data rest hp hwidth halign hfit
  have ha : memAccessAllowed (space.size s.cfg) off width := ⟨hwidth, halign, hfit⟩
  refine ⟨_, _, step_memWrite hp ha, step_memRead (State.setMem_pending _ _ _) (by rwa [State.setMem_cfg]), ?_, ?_⟩
  · rfl
  · simp only [State.nextDraw_readData, State.setReadData_readData, State.mem_setMem_same, readLE_writeLE]

end Sys2Proof.Proofs
end

/-! What a step can do and what it leaves as it was (10_state.md R20, 20_memory.md R57,
93_implementation_defined.md U6). -/
section
namespace Sys2Proof.Proofs

open Sys2Proof.Machine Sys2Proof.Certificates

/-- Settles O9: the idle step. -/
theorem nothingChangesWithoutHostEvent : Obligations.NothingChangesWithoutHostEvent :=
  fun _ h => step_idle h

/-- The step of the next event, on the state with it taken from the list. -/
theorem step_eq_hostEvent {s : State} {e : HostEvent} {rest : List HostEvent} (h : s.pending = e :: rest) :
    step s = hostEvent e (taken s rest) := step_event h

/-- Settles O42: a step without an event is idle; one with an event completes if it is allowed, and else is stuck. -/
theorem stepStopsOnlyOnUndefinedAccess : Obligations.StepStopsOnlyOnUndefinedAccess := by
  intro s
  cases hp : s.pending with
  | nil => simp [step_idle hp]
  | cons e rest =>
    rw [step_eq_hostEvent hp]
    cases ha : e.allowed s.cfg with
    | true =>
      obtain ⟨t, ht⟩ := hostEvent_allowed (s := taken s rest) ha
      simp [ht, ha]
    | false =>
      obtain hreg | hmem := hostEvent_stuck (s := taken s rest) ha
      · simp [hreg, ha]
      · simp [hmem, ha]

/-! The value the host reads. -/

theorem onCmdWrite_readData {v : Word} {s t : State} (h : onCmdWrite v s = .next t) : t.readData = s.readData := by
  obtain ⟨c, n, -, rfl⟩ | ⟨i, out, len, w, hgt, n, -, -, rfl⟩ := onCmdWrite_cases h
  · rfl
  · rfl

theorem hostEvent_readData {e : HostEvent} {s t : State} (h : hostEvent e s = .next t)
    (hreg : ∀ off width, e ≠ .regRead off width) (hmem : ∀ space off width, e ≠ .memRead space off width) :
    t.readData = s.readData := by
  obtain ⟨off, width, he, -⟩ | ⟨data, -, hcmd⟩ | ⟨r, data, -, -, rfl⟩ | ⟨off, width, data, -, -, rfl⟩ |
    ⟨space, off, width, -, he, -⟩ | ⟨space, off, width, data, -, -, rfl⟩ | ⟨-, rfl⟩ := hostEvent_cases h
  case inl => exact absurd he (hreg off width)
  case inr.inl => exact onCmdWrite_readData hcmd
  case inr.inr.inr.inr.inl => exact absurd he (hmem space off width)
  all_goals simp

/-- Settles O43: the sizes and the list are those of `step_cfg_pending`; of all events only the two reads set the
value read. -/
theorem sizesStayAndEventsAreTakenInOrder : Obligations.SizesStayAndEventsAreTakenInOrder := by
  intro s t h
  obtain ⟨hcfg, hpend⟩ := step_cfg_pending h
  refine ⟨hcfg, hpend, fun hne => ?_⟩
  obtain ⟨-, rfl⟩ | ⟨e, rest, hp, he⟩ := step_cases h
  · rfl
  · obtain ⟨hreg, hmem⟩ := hne e (by rw [hp, List.head?_cons])
    exact hostEvent_readData (s := taken s rest) he hreg hmem

/-! STATUS, the RES registers and OUT (10_state.md R24, R28–R31, R37). -/

/-- STATUS and the RES registers of `t` are those of `s`. -/
def sameResults (s t : State) : Prop :=
  t.code = s.code ∧ t.done = s.done ∧ t.resLen = s.resLen ∧ t.resW = s.resW ∧ t.resH = s.resH ∧
    t.resCount = s.resCount

theorem hostEvent_sameResults {e : HostEvent} {s t : State} (h : hostEvent e s = .next t) (hreset : e ≠ .reset)
    (hcmd : ∀ data, e ≠ .regWrite 0x00 4 data) : sameResults s t := by
  obtain ⟨off, width, -, rfl⟩ | ⟨data, he, -⟩ | ⟨r, data, -, -, rfl⟩ | ⟨off, width, data, -, -, rfl⟩ |
    ⟨space, off, width, -, -, rfl⟩ | ⟨space, off, width, data, -, -, rfl⟩ | ⟨he, -⟩ := hostEvent_cases h
  case inr.inl => exact absurd he (hcmd data)
  case inr.inr.inr.inr.inr.inr => exact absurd he hreset
  all_goals simp [sameResults]

theorem hostEvent_outMem {e : HostEvent} {s t : State} (h : hostEvent e s = .next t) (hreset : e ≠ .reset)
    (hcmd : ∀ data, e ≠ .regWrite 0x00 4 data)
    (hne : ∀ off width data, e ≠ .memWrite .outMem off width data) : t.outMem = s.outMem := by
  obtain ⟨off, width, -, rfl⟩ | ⟨data, he, -⟩ | ⟨r, data, -, -, rfl⟩ | ⟨off, width, data, -, -, rfl⟩ |
    ⟨space, off, width, -, -, rfl⟩ | ⟨space, off, width, data, -, he, rfl⟩ | ⟨he, -⟩ := hostEvent_cases h
  case inr.inl => exact absurd he (hcmd data)
  case inr.inr.inr.inr.inr.inl =>
    cases space with
    | inMem => rfl
    | outMem => exact absurd he (hne off width data)
  case inr.inr.inr.inr.inr.inr => exact absurd he hreset
  all_goals simp

/-- Settles O45: the step is its one event, and no event but those named changes the results or OUT. -/
theorem onlyCommandsChangeResults : Obligations.OnlyCommandsChangeResults := by
  intro s t e rest hp hstep hreset hcmd
  have he : hostEvent e (taken s rest) = .next t := step_eq_hostEvent hp ▸ hstep
  obtain ⟨hcode, hdone, hlen, hw, hh, hcount⟩ := hostEvent_sameResults he hreset hcmd
  refine ⟨hcode, hdone, hlen, hw, hh, hcount, fun hne a => ?_⟩
  have hout : t.outMem = s.outMem := hostEvent_outMem (s := taken s rest) he hreset hcmd hne
  rw [hout]

end Sys2Proof.Proofs
end

/-! Which codes a command can report, the commands and the invariant at reset values, and the range of decoded colours
(60_exceptions.md R201, R208; 70_reset_and_hazards.md R232; 42_color_codec.md R174). -/
section
namespace Sys2Proof.Proofs

open Sys2Proof.Machine Sys2Proof.Certificates

/-! The codes of each command (R201). -/

/-- R201's column "raised by", with R208: the errors that a command can report when the sizes are legal. -/
def errorsOf : Instr → List StatusCode
  | .tdec4 | .tdec8 => [.invalidTilesPerRow, .malformedBuffer, .capacityExceeded]
  | .tenc4 => [.invalidDimensions, .capacityExceeded, .pixelIndexOutOfRange]
  | .tenc8 => [.invalidDimensions, .capacityExceeded]
  | .cdec | .cenc => [.unsupportedPaletteSize]

theorem tileDecodeCheck_error {d : Depth} {s : Snapshot} {c : StatusCode} (h : tileDecodeCheck d s = some c) :
    c ∈ [.invalidTilesPerRow, .malformedBuffer, .capacityExceeded] := by
  unfold tileDecodeCheck at h
  split_ifs at h <;> cases h <;> decide

theorem tileEncodeCheck_error {d : Depth} {s : Snapshot} {c : StatusCode} (h : tileEncodeCheck d s = some c) :
    c = .invalidDimensions ∨ c = .capacityExceeded := by
  unfold tileEncodeCheck at h
  split_ifs at h <;> cases h <;> decide

section
variable {s : Snapshot} {c : StatusCode} (hin : 768 ≤ s.inSize) (hout : 768 ≤ s.outSize)
include hin hout

/-- R208: a palette of a legal size fits any IN and OUT of legal sizes. -/
theorem colorDecodeCheck_error (h : colorDecodeCheck s = some c) : c = .unsupportedPaletteSize := by
  unfold colorDecodeCheck at h
  split at h
  · exact (Option.some_inj.1 h).symm
  · rw [if_neg (by omega)] at h
    cases h

theorem colorEncodeCheck_error (h : colorEncodeCheck s = some c) : c = .unsupportedPaletteSize := by
  unfold colorEncodeCheck at h
  split at h
  · exact (Option.some_inj.1 h).symm
  · rw [if_neg (by omega)] at h
    cases h
end

theorem checkOf_error {i : Instr} {s : State} (hl : s.cfg.legal) {c : StatusCode}
    (h : checkOf i s.snapshot = some c) : c ∈ errorsOf i := by
  obtain ⟨hin, -, hout, -⟩ := hl
  cases i with
  | tdec4 | tdec8 => exact tileDecodeCheck_error h
  | tenc4 | tenc8 => obtain rfl | rfl := tileEncodeCheck_error h <;> decide
  | cdec => exact List.mem_singleton.2 (colorDecodeCheck_error hin hout h)
  | cenc => exact List.mem_singleton.2 (colorEncodeCheck_error hin hout h)

/-- A command ends with Ok or with one of its errors, of its check phase or its compute phase. -/
theorem exec_code {i : Instr} {s t : State} (hl : s.cfg.legal) (h : exec i s = .next t) :
    t.code = .ok ∨ t.code ∈ errorsOf i := by
  rw [exec_eq_runCommand] at h
  obtain ⟨c, hc, e⟩ | ⟨c, -, hr, e⟩ | ⟨out, len, w, hgt, n, -, -, e⟩ :=
    runCommand_cases (checkOf i) (computeOf i) s <;> rw [e] at h <;> cases h
  case inl => exact .inr (checkOf_error hl hc)
  case inr.inl =>
    obtain ⟨rfl, rfl⟩ := computeOf_fail hr
    exact .inr (by simp [errorsOf])
  case inr.inr => exact .inl rfl

/-- Settles O23: the column read the other way, which commands have a code among their errors. -/
theorem errorCodesComeOnlyFromTheirCommands : Obligations.ErrorCodesComeOnlyFromTheirCommands := by
  intro i s hl
  obtain ⟨t, ht⟩ := exec_next i s
  refine ⟨t, ht, ?_⟩
  obtain hok | herr := exec_code hl ht
  · simp [hok]
  · generalize t.code = c at herr
    revert c
    cases i <;> decide

/-! Right after reset (R230, R232). -/

/-- R232: TILE_ENCODE at reset values has a raster of no pixels, which it encodes to nothing. -/
theorem tencAt_resetWith (d : Depth) (c : Config) :
    ∃ out, exec (tencAt d) (State.resetWith c) = .next ((State.resetWith c).commitOk out 0 0 0 0).nextDraw := by
  have hcheck : tileEncodeCheck d (State.resetWith c).snapshot = none :=
    tileEncodeCheck_none.2 ⟨rfl, rfl, Nat.zero_le _, by simp [State.resetWith, rasterTiles]⟩
  have hrange : pixelOutOfRange d 0 0 (State.resetWith c).inb = false := pixelOutOfRange_eq_false (by simp)
  refine ⟨fun a => packTileByte d 0 (State.resetWith c).inb (a / bytesPerTile d) (a % bytesPerTile d), ?_⟩
  rw [exec_tencAt, tileEncode_succeeds hcheck hrange]
  simp [State.resetWith, rasterTiles]

/-- Settles O19: TILE_DECODE and the colour commands fail their first check, and TILE_ENCODE commits no bytes. -/
theorem commandsAtResetValues : Obligations.CommandsAtResetValues := by
  intro c d r
  refine ⟨(tileDecodeReportsErrorsInOrder d r).1 rfl, ?_, ?_, ?_⟩
  · obtain ⟨out, hexec⟩ := tencAt_resetWith d c
    refine ⟨_, hexec, ?_, sameOperands_of_exec hexec, fun a => ?_⟩
    · exact committed_commitOk r out (by decide) (by decide) (by decide) (by decide)
    · rw [State.nextDraw_outMem, State.commitOk_outMem, Memory.read_writeFirst, if_neg (Nat.not_lt_zero a)]
      rfl
  · exact (colourCommandsRejectOtherPaletteSizes r).1 (by simp [r, State.resetWith])
  · exact (colourCommandsRejectOtherPaletteSizes r).2.1 (by simp [r, State.resetWith])

theorem inv_resetWith {c : Config} (hc : c.legal) : (State.resetWith c).Inv where
  sizes := hc
  inMem := ⟨List.Pairwise.nil, nofun⟩
  outMem := ⟨List.Pairwise.nil, nofun⟩
  resFits := Nat.zero_le _
  resWritten := fun _ ha => absurd ha (Nat.not_lt_zero _)
  resW := rfl
  resH := rfl
  fresh := fun _ => ⟨rfl, rfl, rfl, rfl, rfl⟩

/-- Settles O39: 4096 is a legal size. -/
theorem invariantHoldsAfterReset : Obligations.InvariantHoldsAfterReset :=
  ⟨fun _ hc => inv_resetWith hc, inv_resetWith (by decide)⟩

/-! Decoded colours (R174). -/

/-- R162: a channel is five bits, times 8. -/
theorem decodedChannel_range (w : BitVec 16) (k : Nat) :
    (decodedChannel w k).toNat % 8 = 0 ∧ (decodedChannel w k).toNat ≤ 248 := by
  have hwiden : ∀ c5 : BitVec 5, (widen c5).toNat % 8 = 0 ∧ (widen c5).toNat ≤ 248 := by
    intro c5
    have hc5 := c5.isLt
    rw [widen_toNat]
    omega
  unfold decodedChannel
  split
  · exact hwiden _
  · split
    · exact hwiden _
    · exact hwiden _

/-- Settles O37: a palette of a legal size decodes to channels, and any other fails. -/
theorem decodedColoursAreMultiplesOfEight : Obligations.DecodedColoursAreMultiplesOfEight := by
  intro s hl
  by_cases hL : s.inLen.toNat = 32 ∨ s.inLen.toNat = 512
  · obtain ⟨t, ht, ⟨-, -, hlen, -⟩, -, hread⟩ := cdec_succeedsWith hl hL
    exact ⟨t, ht, fun _ a ha => ⟨_, hread a (hlen ▸ ha), decodedChannel_range _ _⟩⟩
  · exact ⟨_, (colourCommandsRejectOtherPaletteSizes s).1 (by simpa using hL), nofun⟩

end Sys2Proof.Proofs
end

/-! The host's pseudo-instructions as runs of the machine (30_encoding.md R86–R88, 70_reset_and_hazards.md R243). -/
section
namespace Sys2Proof.Proofs

open Sys2Proof.Machine Sys2Proof.Certificates

/-! The commands' pseudo-instructions: operand writes, then the command. -/

/-- `wr NAME, imm32` of a register other than CMD. -/
theorem run_wr {s : State} {r : RegName} {v : Word} {rest : List HostEvent} (n : Nat)
    (h : s.pending = (Line.wr r v).event :: rest) (hr : r ≠ .cmd) :
    run (n + 1) s = run n ((taken s rest).writeReg r v) :=
  run_succ_of_next (step_regWrite h hr)

/-- `cmd MNEMONIC`: the encoded word decodes to its command, which runs. -/
theorem run_cmdLine {s : State} {i : Instr} {rest : List HostEvent} (h : s.pending = (Line.cmd i).event :: rest) :
    run 1 s = exec i (taken s rest) := by
  have hstep : step s = exec i (taken s rest) := (step_cmdWrite h).trans (onCmdWrite_ok (decodeCmd_encode i) _)
  obtain ⟨t, ht⟩ := exec_next i (taken s rest)
  rw [run_succ_of_next (hstep.trans ht), run_zero, ht]

theorem taken_writeReg_taken (s : State) (rest rest' : List HostEvent) (r : RegName) (v : Word) :
    taken ((taken s rest).writeReg r v) rest' = (taken s rest').writeReg r v := by
  cases r <;> rfl

/-- One operand, then the command. -/
theorem run_wr_cmd {s : State} {r : RegName} {v : Word} {i : Instr} {rest : List HostEvent}
    (h : s.pending = (Line.wr r v).event :: (Line.cmd i).event :: rest) (hr : r ≠ .cmd) :
    run 2 s = exec i ((taken s rest).writeReg r v) := by
  rw [run_wr 1 h hr, run_cmdLine (State.writeReg_pending _ _ _), taken_writeReg_taken]

/-- Two operands, then the command. -/
theorem run_wr_wr_cmd {s : State} {r r' : RegName} {v v' : Word} {i : Instr} {rest : List HostEvent}
    (h : s.pending = (Line.wr r v).event :: (Line.wr r' v').event :: (Line.cmd i).event :: rest) (hr : r ≠ .cmd)
    (hr' : r' ≠ .cmd) : run 3 s = exec i (((taken s rest).writeReg r v).writeReg r' v') := by
  rw [run_wr 2 h hr, run_wr_cmd (State.writeReg_pending _ _ _) hr', taken_writeReg_taken]

/-- Settles O46: each operand write is one step, and the last step runs the command. -/
theorem commandPseudoInstructionsRunTheirCommand : Obligations.CommandPseudoInstructionsRunTheirCommand := by
  intro s rest
  refine ⟨fun d tpr len hp => ?tdec, fun d w h hp => ?tenc, fun len hp => ?cdec, fun n hp => ?cenc⟩
  case tdec => exact run_wr_wr_cmd (r := .inLen) (r' := .argA) hp (by decide) (by decide)
  case tenc => exact run_wr_wr_cmd (r := .argA) (r' := .argB) hp (by decide) (by decide)
  case cdec => exact run_wr_cmd (r := .inLen) hp (by decide)
  case cenc => exact run_wr_cmd (r := .argA) hp (by decide)

/-! Lines that move one byte. -/

theorem leByte_zero_toNat (v : Word) : (leByte v 0).toNat = v.toNat % 256 := by
  simp [leByte]

theorem byteAccess_allowed {size off : Nat} (h : off + 1 ≤ size) : memAccessAllowed size off 1 :=
  ⟨.inl rfl, Nat.mod_one off, h⟩

/-- A host write of one byte stores the low byte of its data. -/
theorem step_byteWrite {s : State} {space : Space} {off : Nat} {data : HostData} {rest : List HostEvent}
    (h : s.pending = .memWrite space off 1 data :: rest) (hfit : off + 1 ≤ space.size s.cfg) :
    step s = .next ((taken s rest).setMem space ((s.mem space).write off (leByte (s.dataValue data) 0))) :=
  step_memWrite h (byteAccess_allowed hfit)

/-! FILL and ZERO. -/

/-- `sb SPACE, off, imm8`. -/
theorem step_sb {s : State} {space : Space} {off : Nat} {b : Byte} {rest : List HostEvent}
    (h : s.pending = (Line.sb space off b).event :: rest) (hfit : off + 1 ≤ space.size s.cfg) :
    step s = .next ((taken s rest).setMem space ((s.mem space).write off b)) := by
  have hlow : leByte (b.setWidth 32) 0 = b := by
    have hb := b.isLt
    apply BitVec.eq_of_toNat_eq
    rw [leByte_zero_toNat, BitVec.toNat_setWidth]
    omega
  rw [step_byteWrite h hfit, State.dataValue, hlow]

/-- Setting a space's memory twice, and taking events in between, leaves the last of both. -/
theorem setMem_taken_setMem (s : State) (rest rest' : List HostEvent) (space : Space) (m m' : Memory) :
    (taken ((taken s rest).setMem space m) rest').setMem space m' = (taken s rest').setMem space m' := by
  cases space <;> rfl

theorem setMem_taken_mem {s : State} {rest : List HostEvent} (h : s.pending = rest) (space : Space) :
    (taken s rest).setMem space (s.mem space) = s := by
  subst h
  cases space <;> rfl

/-- R88: the run of FILL, by induction on its bytes, each of which is one step. -/
theorem run_fillLines {s : State} {space : Space} {off : Nat} {bytes : List Byte} {rest : List HostEvent}
    (h : s.pending = (fillLines space off bytes).map Line.event ++ rest)
    (hfit : off + bytes.length ≤ space.size s.cfg) :
    ∃ m : Memory, run bytes.length s = .next ((taken s rest).setMem space m) ∧
      (∀ k (hk : k < bytes.length), m.read (off + k) = some bytes[k]) ∧
      ∀ a, a < off ∨ off + bytes.length ≤ a → m.read a = (s.mem space).read a := by
  induction bytes generalizing s off with
  | nil =>
    refine ⟨s.mem space, ?_, nofun, fun _ _ => rfl⟩
    rw [setMem_taken_mem (show s.pending = rest from h)]
    exact run_zero s
  | cons b bs ih =>
    simp only [List.length_cons] at hfit
    have hstep := step_sb h (by omega)
    have hpend : ((taken s _).setMem space ((s.mem space).write off b)).pending
        = (fillLines space (off + 1) bs).map Line.event ++ rest := State.setMem_pending _ _ _
    have hrest : off + 1 + bs.length ≤ space.size s.cfg := by omega
    obtain ⟨m, hrun, hread, hframe⟩ := ih hpend (by rwa [State.setMem_cfg])
    rw [setMem_taken_setMem] at hrun
    rw [State.mem_setMem_same] at hframe
    refine ⟨m, (run_succ_of_next hstep).trans hrun, fun k hk => ?_, fun a ha => ?_⟩
    · cases k with
      | zero => rw [hframe _ (by omega), Nat.add_zero, Memory.read_write_same, List.getElem_cons_zero]
      | succ k =>
        have hoff : off + (k + 1) = off + 1 + k := by omega
        rw [hoff]
        exact hread k (Nat.lt_of_succ_lt_succ hk)
    · rw [List.length_cons] at ha
      rw [hframe a (by omega), Memory.read_write_other _ _ (by omega)]

/-- R88: ZERO's expansion, line by line. -/
theorem fillLines_replicate_zero (space : Space) (off n : Nat) :
    fillLines space off (List.replicate n 0) = (List.range n).map fun i => .sb space (off + i) 0 := by
  induction n generalizing off with
  | zero => rfl
  | succ n ih =>
    rw [List.replicate_succ, fillLines, ih, List.range_succ_eq_map, List.map_cons, List.map_map]
    simp [Function.comp_def, Nat.add_assoc, Nat.add_comm 1]

/-- Settles O48: the run of FILL's lines, and ZERO's lines are FILL's. -/
theorem fillStoresItsBytes : Obligations.FillStoresItsBytes := by
  refine ⟨fun s space off bytes rest hp hfit => ?_, fun space off n => (fillLines_replicate_zero space off n).symm⟩
  obtain ⟨m, hrun, hread, hframe⟩ := run_fillLines hp hfit
  refine ⟨m, ?_, hread, hframe⟩
  rw [hrun]
  cases space <;> rfl

/-! COPY. -/

/-- R88: one byte of COPY, read from OUT and written to IN: two steps. -/
theorem run_copyByte {s : State} {a : Nat} {b : Byte} {rest : List HostEvent}
    (h : s.pending = (Line.lb .outMem a).event :: (Line.sbRead .inMem a).event :: rest) (hin : a + 1 ≤ s.cfg.inSize)
    (hout : a + 1 ≤ s.cfg.outSize) (hb : s.outMem.read a = some b) :
    ∃ d v, run 2 s = .next { s with inMem := s.inMem.write a b, pending := rest, draws := d, readData := v } := by
  have hlow : leByte (s.outMem.readLE s.draws a 1) 0 = b :=
    (Memory.readLE_byte _ _ _ (by decide) (by decide)).trans (Memory.readByte_written hb _)
  refine ⟨s.draws + 1, s.outMem.readLE s.draws a 1, ?_⟩
  rw [run_succ_of_next (step_memRead h (byteAccess_allowed hout)),
    run_succ_of_next (step_byteWrite rfl hin), run_zero, ← hlow]
  rfl

theorem copy_events_succ (n : Nat) : (Pseudo.copy (n + 1)).events =
    (Pseudo.copy n).events ++ [(Line.lb .outMem n).event, (Line.sbRead .inMem n).event] := by
  simp [Pseudo.events, Pseudo.expand, List.range_succ]

/-- The run of COPY, by induction on its length, the last byte being moved last. -/
theorem run_copy {s : State} {n : Nat} {rest : List HostEvent} (h : s.pending = (Pseudo.copy n).events ++ rest)
    (hin : n ≤ s.cfg.inSize) (hout : n ≤ s.cfg.outSize) (hw : ∀ a, a < n → s.outMem.read a ≠ none) :
    ∃ m d v, run (2 * n) s = .next { s with inMem := m, pending := rest, draws := d, readData := v } ∧
      (∀ a, a < n → m.read a = s.outMem.read a) ∧ ∀ a, n ≤ a → m.read a = s.inMem.read a := by
  induction n generalizing rest with
  | zero =>
    obtain rfl : s.pending = rest := h
    exact ⟨s.inMem, s.draws, s.readData, run_zero s, nofun, fun _ _ => rfl⟩
  | succ n ih =>
    rw [copy_events_succ, List.append_assoc] at h
    obtain ⟨m, d, v, hrun, hcopied, hkept⟩ := ih h (by omega) (by omega) fun a ha => hw a (by omega)
    obtain ⟨b, hb⟩ := Option.ne_none_iff_exists'.1 (hw n (Nat.lt_succ_self n))
    obtain ⟨d', v', hlast⟩ :=
      run_copyByte (s := { s with inMem := m, pending := _, draws := d, readData := v }) rfl hin hout hb
    refine ⟨m.write n b, d', v', (run_add hrun).trans hlast, fun a ha => ?_, fun a ha => ?_⟩
    · obtain rfl | hne := eq_or_ne a n
      · rw [Memory.read_write_same, hb]
      · rw [Memory.read_write_other _ _ hne, hcopied a (by omega)]
    · rw [Memory.read_write_other _ _ (by omega), hkept a (by omega)]

/-- Settles O47: the run of COPY, whose state differs in IN and in the model's own fields only. -/
theorem copyMovesOutputToInput : Obligations.CopyMovesOutputToInput := by
  intro s n rest hp hin hout hw
  obtain ⟨m, d, v, hrun, hcopied, hkept⟩ := run_copy hp hin hout hw
  exact ⟨_, hrun, hcopied, hkept, rfl⟩

end Sys2Proof.Proofs
end
